-- ==== Sys2Proof/Word.lean ====
section
/-! DEFINITION. The value types of the machine: bytes, 16-bit words, the fields of an instruction word, and register
numbers. Every value is unsigned and nothing is sign-extended (spec/00_scope.md R10). -/

namespace Sys2Proof

/-- An 8-bit unsigned value: a general register, a timer, a byte of memory (R20, R31, R56). -/
abbrev Byte := BitVec 8

/-- A 16-bit unsigned value: PC, I, a stack entry, an instruction word (R23, R26, R27, R80). -/
abbrev Word := BitVec 16

/-- The 12-bit address field NNN of an instruction word (R81). -/
abbrev Addr := BitVec 12

/-- A 4-bit field of an instruction word (R81). -/
abbrev Nibble := BitVec 4

/-- The number of a general register; every value 0..15 is valid (R20). -/
abbrev RegIx := Fin 16

/-- VF, register 15: a general register and the only flag (R11, R21). -/
def VF : RegIx := 15

/-- V0, the implicit operand of JP V0, NNN (R158). -/
def V0 : RegIx := 0

end Sys2Proof
end

