-- ==== Sys2Proof/Config.lean ====
section
/-! DEFINITION. What an implementation fixes: the OPEN parameters of spec/00_scope.md R8 as one record of plain data
(State carries it, so every statement holds for every setting: log entry 1), and the two free values, constants with no
body (log entry 2). -/

namespace Sys2Proof

/-- CLASS0_MATCH: which class-0 words are CLS and RET (R87, D9). -/
inductive Class0Match where
  | fullWord
  | lowByte
  deriving DecidableEq, Repr

/-- ALU_FLAG_ORDER: the order of the Vx and VF writes of ADD, SUB and SUBN (R190, D13). -/
inductive AluFlagOrder where
  | flagThenResult
  | resultThenFlag
  deriving DecidableEq, Repr

/-- DRAW_CLIP: the bound test of DRW (R133, D14). -/
inductive DrawClip where
  | unwrappedClip
  | wrappedStartClip
  deriving DecidableEq, Repr

/-- KEY_RECHECK: the key-state that the re-check of FX0A reads (R254, D19). -/
inductive KeyRecheck where
  | freshSample
  | sameSample
  deriving DecidableEq, Repr

/-- The OPEN parameters of the hardware (R8). -/
structure Config where
  /-- STACK_DEPTH (D3). -/
  stackDepth : Nat
  /-- FONT_BASE (D4). -/
  fontBase : Nat
  /-- STEPS_PER_FRAME (D34). -/
  stepsPerFrame : Nat
  /-- CLASS0_MATCH (D9). -/
  class0Match : Class0Match
  /-- ALU_FLAG_ORDER (D13). -/
  aluFlagOrder : AluFlagOrder
  /-- DRAW_CLIP (D14). -/
  drawClip : DrawClip
  /-- KEY_RECHECK (D19). -/
  keyRecheck : KeyRecheck
  /-- SOUND_TIMER_TICKS (D21). -/
  soundTimerTicks : Bool
  deriving DecidableEq, Repr

/-- The random-byte input of the n-th draw: "a draw under no law" (R38, D25; log entry 2). -/
opaque Config.randByte : Nat → Byte

/-- The key-state that the re-check of FX0A reads in the n-th draw under `FreshSample`: "a draw, any 16-bit key-state,
under no law" (R254; log entry 2). -/
opaque Config.recheckKeys : Nat → Vector Bool 16

end Sys2Proof
end

