-- ==== Sys2Proof/Machine/Params.lean ====
section
/-! DEFINITION. The fixed parameters of spec/00_scope.md R8, the spec's default for each OPEN one, and the font table of
spec/70_reset_and_hazards.md R322. -/

namespace Sys2Proof.Machine

/-- MEM_SIZE: addresses 0x000-0xFFF (R8, R50). -/
def memSize : Nat := 4096

/-- PROGRAM_BASE: the first byte of the ROM and the reset entry point (R8, R52, D2). -/
def programBase : Nat := 0x200

/-- FONT_SIZE: 16 glyphs of 5 bytes (R8). -/
def fontSize : Nat := 80

/-- The spec's default of every OPEN parameter (R8). -/
def defaultConfig : Config where
  stackDepth := 16
  fontBase := 0x050
  stepsPerFrame := 9
  class0Match := .fullWord
  aluFlagOrder := .flagThenResult
  drawClip := .unwrappedClip
  keyRecheck := .freshSample
  soundTimerTicks := true

/-- The glyphs of the digits 0-7, top row first (R322). -/
def fontLow : List Byte :=
  [0xF0, 0x90, 0x90, 0x90, 0xF0] ++ [0x20, 0x60, 0x20, 0x20, 0x70] ++
  [0xF0, 0x10, 0xF0, 0x80, 0xF0] ++ [0xF0, 0x10, 0xF0, 0x10, 0xF0] ++
  [0x90, 0x90, 0xF0, 0x10, 0x10] ++ [0xF0, 0x80, 0xF0, 0x10, 0xF0] ++
  [0xF0, 0x80, 0xF0, 0x90, 0xF0] ++ [0xF0, 0x10, 0x20, 0x40, 0x40]

/-- The glyphs of the digits 8-F, top row first (R322). -/
def fontHigh : List Byte :=
  [0xF0, 0x90, 0xF0, 0x90, 0xF0] ++ [0xF0, 0x90, 0xF0, 0x10, 0xF0] ++
  [0xF0, 0x90, 0xF0, 0x90, 0x90] ++ [0xE0, 0x90, 0xE0, 0x90, 0xE0] ++
  [0xF0, 0x80, 0x80, 0x80, 0xF0] ++ [0xE0, 0x90, 0x90, 0x90, 0xE0] ++
  [0xF0, 0x80, 0xF0, 0x80, 0xF0] ++ [0xF0, 0x80, 0xF0, 0x80, 0x80]

/-- FONT[0..79]: the glyph of digit d is at 5d..5d+4 (R322). -/
def fontTable : List Byte := fontLow ++ fontHigh

end Sys2Proof.Machine
end

