-- ==== Sys2Proof/Syntax.lean ====
section
/-! DEFINITION. The instructions: one constructor per row of spec/opcode_table.json, in the table's order (R85). -/

namespace Sys2Proof

/-- The instruction set of spec/30_encoding.md R85. `x`, `y` are register fields, `kk` an immediate, `nnn` an address
field, `n` the low nibble. -/
inductive Instr where
  /-- `00E0` CLS (R130). -/
  | cls
  /-- `00EE` RET (R150). -/
  | ret
  /-- `0NNN` SYS NNN, every class-0 word that is neither CLS nor RET (R116). -/
  | sys (nnn : Addr)
  /-- `1NNN` JP NNN (R151). -/
  | jp (nnn : Addr)
  /-- `2NNN` CALL NNN (R153). -/
  | call (nnn : Addr)
  /-- `3XKK` SE Vx, KK (R154). -/
  | seImm (x : RegIx) (kk : Byte)
  /-- `4XKK` SNE Vx, KK (R155). -/
  | sneImm (x : RegIx) (kk : Byte)
  /-- `5XYN` SE Vx, Vy; `n` is a field of the word that the instruction ignores (R156, R88; log entry 6). -/
  | seReg (x y : RegIx) (n : Nibble)
  /-- `6XKK` LD Vx, KK (R181). -/
  | ldImm (x : RegIx) (kk : Byte)
  /-- `7XKK` ADD Vx, KK (R182). -/
  | addImm (x : RegIx) (kk : Byte)
  /-- `8XY0` LD Vx, Vy (R183). -/
  | ldReg (x y : RegIx)
  /-- `8XY1` OR Vx, Vy (R184). -/
  | orReg (x y : RegIx)
  /-- `8XY2` AND Vx, Vy (R185). -/
  | andReg (x y : RegIx)
  /-- `8XY3` XOR Vx, Vy (R186). -/
  | xorReg (x y : RegIx)
  /-- `8XY4` ADD Vx, Vy (R187). -/
  | addReg (x y : RegIx)
  /-- `8XY5` SUB Vx, Vy (R188). -/
  | subReg (x y : RegIx)
  /-- `8XY6` SHR Vx, Vy (R191). -/
  | shrReg (x y : RegIx)
  /-- `8XY7` SUBN Vx, Vy (R189). -/
  | subnReg (x y : RegIx)
  /-- `8XYE` SHL Vx, Vy (R192). -/
  | shlReg (x y : RegIx)
  /-- `9XYN` SNE Vx, Vy; `n` is ignored (R157, R88; log entry 6). -/
  | sneReg (x y : RegIx) (n : Nibble)
  /-- `ANNN` LD I, NNN (R220). -/
  | ldI (nnn : Addr)
  /-- `BNNN` JP V0, NNN (R158). -/
  | jpV0 (nnn : Addr)
  /-- `CXKK` RND Vx, KK (R193). -/
  | rnd (x : RegIx) (kk : Byte)
  /-- `DXYN` DRW Vx, Vy, N; `n` rows, 0..15 (R131). -/
  | drw (x y : RegIx) (n : Nibble)
  /-- `EX9E` SKP Vx (R250). -/
  | skp (x : RegIx)
  /-- `EXA1` SKNP Vx (R251). -/
  | sknp (x : RegIx)
  /-- `FX07` LD Vx, DT (R253). -/
  | ldVxDt (x : RegIx)
  /-- `FX0A` LD Vx, K (R255). -/
  | ldVxK (x : RegIx)
  /-- `FX15` LD DT, Vx (R257). -/
  | ldDtVx (x : RegIx)
  /-- `FX18` LD ST, Vx (R258). -/
  | ldStVx (x : RegIx)
  /-- `FX1E` ADD I, Vx (R221). -/
  | addI (x : RegIx)
  /-- `FX29` LD F, Vx (R222). -/
  | ldF (x : RegIx)
  /-- `FX33` LD B, Vx (R223). -/
  | ldB (x : RegIx)
  /-- `FX55` LD [I], Vx (R224). -/
  | storeRegs (x : RegIx)
  /-- `FX65` LD Vx, [I] (R225). -/
  | loadRegs (x : RegIx)
  deriving DecidableEq, Repr

end Sys2Proof
end

