-- ==== Sys2Proof/WellFormed.lean ====
section
/-! DEFINITION. Which instruction terms stand for a word, and which configurations the spec admits. -/

namespace Sys2Proof

/-- The low byte KK of an address field NNN (R81). -/
def Addr.lowByte (nnn : Addr) : Byte := nnn.extractLsb' 0 8

/-- `nnn` is the address field of a CLS or RET word under CLASS0_MATCH (R87). -/
def Class0Match.takes (m : Class0Match) (nnn : Addr) : Bool :=
  match m with
  | .fullWord => nnn == 0x0E0 || nnn == 0x0EE
  | .lowByte => nnn.lowByte == 0xE0 || nnn.lowByte == 0xEE

/-- An instruction term is well-formed when some word decodes to it. The types bound every field; only SYS NNN has a
check: its word is neither CLS nor RET under CLASS0_MATCH (R85 row 3, R87). -/
def Instr.wellFormed (m : Class0Match) : Instr → Bool
  | .cls => true
  | .ret => true
  | .sys nnn => !m.takes nnn
  | .jp _ => true
  | .call _ => true
  | .seImm _ _ => true
  | .sneImm _ _ => true
  | .seReg _ _ _ => true
  | .ldImm _ _ => true
  | .addImm _ _ => true
  | .ldReg _ _ => true
  | .orReg _ _ => true
  | .andReg _ _ => true
  | .xorReg _ _ => true
  | .addReg _ _ => true
  | .subReg _ _ => true
  | .shrReg _ _ => true
  | .subnReg _ _ => true
  | .shlReg _ _ => true
  | .sneReg _ _ _ => true
  | .ldI _ => true
  | .jpV0 _ => true
  | .rnd _ _ => true
  | .drw _ _ _ => true
  | .skp _ => true
  | .sknp _ => true
  | .ldVxDt _ => true
  | .ldVxK _ => true
  | .ldDtVx _ => true
  | .ldStVx _ => true
  | .addI _ => true
  | .ldF _ => true
  | .ldB _ => true
  | .storeRegs _ => true
  | .loadRegs _ => true

/-- Configuration well-formedness, checked before `init` and by no instruction (R9, R325). -/
def Config.valid (c : Config) : Bool :=
  decide (1 ≤ c.stackDepth) && decide (c.fontBase + Machine.fontSize ≤ Machine.programBase) &&
    decide (Machine.programBase < Machine.memSize) && decide (1 ≤ c.stepsPerFrame)

end Sys2Proof
end

