-- ==== Sys2Proof/Decode.lean ====
section
/-! DEFINITION. The decoder of spec/30_encoding.md R91, total on every word and on every list of bytes, and the encoder
written from the opcode map of R85. -/

namespace Sys2Proof

/-- Why bytes are no instruction. -/
inductive DecodeError where
  /-- Fewer than two bytes: no fetch produces this (R80; log entry 12). -/
  | tooShort
  /-- The word `w` matches no class and sub-selector (R89). -/
  | unimplemented (w : Word)
  deriving DecidableEq, Repr

/-- The opcode class `c`, bits 15-12 (R81). -/
def fieldC (w : Word) : Nibble := w.extractLsb' 12 4

/-- The register field `X`, bits 11-8 (R81). -/
def fieldX (w : Word) : RegIx := (w.extractLsb' 8 4).toFin

/-- The register field `Y`, bits 7-4 (R81). -/
def fieldY (w : Word) : RegIx := (w.extractLsb' 4 4).toFin

/-- The field `N`, bits 3-0 (R81). -/
def fieldN (w : Word) : Nibble := w.extractLsb' 0 4

/-- The field `KK`, bits 7-0 (R81). -/
def fieldKK (w : Word) : Byte := w.extractLsb' 0 8

/-- The field `NNN`, bits 11-0 (R81). -/
def fieldNNN (w : Word) : Addr := w.extractLsb' 0 12

/-- `class0_is(w, b)` of R91: the open match of class 0 (R87). -/
def class0Is (m : Class0Match) (w : Word) (b : Byte) : Bool :=
  match m with
  | .fullWord => w == b.setWidth 16
  | .lowByte => fieldKK w == b

/-- Class 0x0: CLS, RET, and SYS NNN for every other word (R87, R116). -/
def decodeClass0 (m : Class0Match) (w : Word) : Except DecodeError Instr :=
  if class0Is m w 0xE0 then .ok .cls
  else if class0Is m w 0xEE then .ok .ret
  else .ok (.sys (fieldNNN w))

/-- Class 0x8, routed further on `N` (R84, R91). -/
def decodeClass8 (w : Word) : Except DecodeError Instr :=
  match (fieldN w).toNat with
  | 0x0 => .ok (.ldReg (fieldX w) (fieldY w))
  | 0x1 => .ok (.orReg (fieldX w) (fieldY w))
  | 0x2 => .ok (.andReg (fieldX w) (fieldY w))
  | 0x3 => .ok (.xorReg (fieldX w) (fieldY w))
  | 0x4 => .ok (.addReg (fieldX w) (fieldY w))
  | 0x5 => .ok (.subReg (fieldX w) (fieldY w))
  | 0x6 => .ok (.shrReg (fieldX w) (fieldY w))
  | 0x7 => .ok (.subnReg (fieldX w) (fieldY w))
  | 0xE => .ok (.shlReg (fieldX w) (fieldY w))
  | _ => .error (.unimplemented w)

/-- Class 0xE, routed further on `KK` (R84, R91). -/
def decodeClassE (w : Word) : Except DecodeError Instr :=
  match (fieldKK w).toNat with
  | 0x9E => .ok (.skp (fieldX w))
  | 0xA1 => .ok (.sknp (fieldX w))
  | _ => .error (.unimplemented w)

/-- Class 0xF, routed further on `KK` (R84, R91). -/
def decodeClassF (w : Word) : Except DecodeError Instr :=
  match (fieldKK w).toNat with
  | 0x07 => .ok (.ldVxDt (fieldX w))
  | 0x0A => .ok (.ldVxK (fieldX w))
  | 0x15 => .ok (.ldDtVx (fieldX w))
  | 0x18 => .ok (.ldStVx (fieldX w))
  | 0x1E => .ok (.addI (fieldX w))
  | 0x29 => .ok (.ldF (fieldX w))
  | 0x33 => .ok (.ldB (fieldX w))
  | 0x55 => .ok (.storeRegs (fieldX w))
  | 0x65 => .ok (.loadRegs (fieldX w))
  | _ => .error (.unimplemented w)

/-- The decode function of R91. Classes 0x5 and 0x9 are routed on the class alone (R88); the last arm is class 0xF, the
only value left. -/
def decodeWord (m : Class0Match) (w : Word) : Except DecodeError Instr :=
  match (fieldC w).toNat with
  | 0x0 => decodeClass0 m w
  | 0x1 => .ok (.jp (fieldNNN w))
  | 0x2 => .ok (.call (fieldNNN w))
  | 0x3 => .ok (.seImm (fieldX w) (fieldKK w))
  | 0x4 => .ok (.sneImm (fieldX w) (fieldKK w))
  | 0x5 => .ok (.seReg (fieldX w) (fieldY w) (fieldN w))
  | 0x6 => .ok (.ldImm (fieldX w) (fieldKK w))
  | 0x7 => .ok (.addImm (fieldX w) (fieldKK w))
  | 0x8 => decodeClass8 w
  | 0x9 => .ok (.sneReg (fieldX w) (fieldY w) (fieldN w))
  | 0xA => .ok (.ldI (fieldNNN w))
  | 0xB => .ok (.jpV0 (fieldNNN w))
  | 0xC => .ok (.rnd (fieldX w) (fieldKK w))
  | 0xD => .ok (.drw (fieldX w) (fieldY w) (fieldN w))
  | 0xE => decodeClassE w
  | _ => decodeClassF w

/-- Decode from bytes: a decoder always consumes exactly two, the first in bits 15-8 (R80, R57). -/
def decode (m : Class0Match) : List Byte → Except DecodeError (Instr × List Byte)
  | hi :: lo :: rest =>
    match decodeWord m (hi ++ lo) with
    | .ok i => .ok (i, rest)
    | .error e => .error e
  | [_] => .error .tooShort
  | [] => .error .tooShort

/-- The two bytes of a word as memory holds them, the one at the lower address first (R57). -/
def wordBytes (w : Word) : List Byte := [w.extractLsb' 8 8, w.extractLsb' 0 8]

/-- A register number as a 4-bit field. -/
def regBits (r : RegIx) : Nibble := BitVec.ofFin r

/-- A word of the layout `c X KK` (R81). -/
def layoutXKK (c : Nibble) (x : RegIx) (kk : Byte) : Word := c ++ (regBits x ++ kk)

/-- A word of the layout `c X Y N` (R81). -/
def layoutXYN (c : Nibble) (x y : RegIx) (n : Nibble) : Word := c ++ (regBits x ++ (regBits y ++ n))

/-- A word of the layout `c NNN` (R81). -/
def layoutNNN (c : Nibble) (nnn : Addr) : Word := c ++ nnn

/-- The word of an instruction, from the patterns of R85. -/
def encode : Instr → Word
  | .cls => 0x00E0
  | .ret => 0x00EE
  | .sys nnn => layoutNNN 0x0 nnn
  | .jp nnn => layoutNNN 0x1 nnn
  | .call nnn => layoutNNN 0x2 nnn
  | .seImm x kk => layoutXKK 0x3 x kk
  | .sneImm x kk => layoutXKK 0x4 x kk
  | .seReg x y n => layoutXYN 0x5 x y n
  | .ldImm x kk => layoutXKK 0x6 x kk
  | .addImm x kk => layoutXKK 0x7 x kk
  | .ldReg x y => layoutXYN 0x8 x y 0x0
  | .orReg x y => layoutXYN 0x8 x y 0x1
  | .andReg x y => layoutXYN 0x8 x y 0x2
  | .xorReg x y => layoutXYN 0x8 x y 0x3
  | .addReg x y => layoutXYN 0x8 x y 0x4
  | .subReg x y => layoutXYN 0x8 x y 0x5
  | .shrReg x y => layoutXYN 0x8 x y 0x6
  | .subnReg x y => layoutXYN 0x8 x y 0x7
  | .shlReg x y => layoutXYN 0x8 x y 0xE
  | .sneReg x y n => layoutXYN 0x9 x y n
  | .ldI nnn => layoutNNN 0xA nnn
  | .jpV0 nnn => layoutNNN 0xB nnn
  | .rnd x kk => layoutXKK 0xC x kk
  | .drw x y n => layoutXYN 0xD x y n
  | .skp x => layoutXKK 0xE x 0x9E
  | .sknp x => layoutXKK 0xE x 0xA1
  | .ldVxDt x => layoutXKK 0xF x 0x07
  | .ldVxK x => layoutXKK 0xF x 0x0A
  | .ldDtVx x => layoutXKK 0xF x 0x15
  | .ldStVx x => layoutXKK 0xF x 0x18
  | .addI x => layoutXKK 0xF x 0x1E
  | .ldF x => layoutXKK 0xF x 0x29
  | .ldB x => layoutXKK 0xF x 0x33
  | .storeRegs x => layoutXKK 0xF x 0x55
  | .loadRegs x => layoutXKK 0xF x 0x65

/-- The one instruction word that a word of spec/opcode_table.json stands for: its low `nbits` bits, the rest 0. -/
def tableWord (nbits w : Nat) : Word := BitVec.ofNat 16 (w % 2 ^ nbits)

/-- The instruction the decoder reads from the table's word `w` of `nbits` bits, under the default CLASS0_MATCH. -/
def decodeTableWord (nbits w : Nat) : Option Instr :=
  match decode Machine.defaultConfig.class0Match (wordBytes (tableWord nbits w)) with
  | .ok (i, _) => some i
  | .error _ => none

end Sys2Proof
end

