-- ==== Sys2Proof/Machine/State.lean ====
section
/-! DEFINITION. The machine's state as plain data (spec/10_state.md R39), the reasons a run ends, and the state after
initialization (spec/70_reset_and_hazards.md R320). -/

namespace Sys2Proof.Machine

/-- The faults of spec/60_exceptions.md R283. A meaning answers one with `.fault`; `step` then takes it as R119 says
(the state of the start of the step, the run ended), so the run goes no further. Safe: nothing is claimed of the chip
past one (log entry 3). -/
inductive Fault where
  /-- An access at an address `a >= 4096` (R54). Raised by the fetch, DRW, LD B, LD [I] and LD Vx,[I]; safe. -/
  | memOutOfRange (a : Nat)
  /-- A key index `v > 15` (R252). Raised by SKP and SKNP; safe. -/
  | keyIndexOutOfRange (v : Byte)
  deriving DecidableEq, Repr

/-- Why an instruction has no meaning in this model. -/
inductive Refusal where
  /-- An instruction with no meaning yet, by its mnemonic; raised by no arm of `exec`; safe. -/
  | notModelled (mnemonic : String)
  deriving DecidableEq, Repr

/-- Why a run ended (R35). -/
inductive EndReason where
  /-- A return with an empty stack (R150). -/
  | stackUnderflow
  /-- A fault (R283). -/
  | fault (f : Fault)
  deriving DecidableEq, Repr

/-- The run state (R35); only initialization returns it to `running`. -/
inductive RunState where
  | running
  | ended (r : EndReason)
  deriving DecidableEq, Repr

/-- The status output (R35, R281): the result of the most recent step or load. -/
inductive Status where
  | ok
  | unimplemented (w : Word)
  | stackOverflowStall
  | fatalStackUnderflow
  | fault (f : Fault)
  | notRunning
  | romTooLarge (len : Nat)
  deriving DecidableEq, Repr

/-- `key[0]`..`key[15]`, true when pressed (R32). -/
abbrev KeyState := Vector Bool 16

/-- `fb[x][y]`: 64 columns of 32 pixels, true when on (R33). -/
abbrev Framebuffer := Vector (Vector Bool 32) 64

/-- The whole state (R39), with the configuration it runs under (log entry 1). -/
structure State where
  /-- The configuration (R8); nothing writes it. -/
  cfg : Config
  /-- V0..VF (R20). -/
  v : Vector Byte 16
  /-- I, the index register (R26). -/
  i : Word
  /-- PC (R23). -/
  pc : Word
  /-- `stack[0]`..`stack[STACK_DEPTH - 1]` (R27). -/
  stack : List Word
  /-- SP, the number of valid entries (R28). -/
  sp : Nat
  /-- DT, the delay timer (R31). -/
  dt : Byte
  /-- ST, the sound timer (R31). -/
  st : Byte
  /-- The key-state, written by the host alone (R32). -/
  keys : KeyState
  /-- The framebuffer (R33). -/
  fb : Framebuffer
  /-- Memory (R50): the bytes that differ from their reset content, addresses strictly rising (log entry 4). -/
  mem : List Host.Cell
  /-- The run state (R35). -/
  run : RunState
  /-- The status output (R35, R281). -/
  status : Status
  /-- The model's own field: how many free values have been taken (log entry 2). -/
  draws : Nat
  deriving DecidableEq, Repr

/-- Initialization under a configuration (R320): the reset column of R39. Memory lists nothing, and an unlisted address
reads as its reset content, the font table included. -/
def State.init (c : Config) : State where
  cfg := c
  v := Vector.replicate 16 0
  i := 0
  pc := BitVec.ofNat 16 programBase
  stack := List.replicate c.stackDepth 0
  sp := 0
  dt := 0
  st := 0
  keys := Vector.replicate 16 false
  fb := Vector.replicate 64 (Vector.replicate 32 false)
  mem := []
  run := .running
  status := .ok
  draws := 0

/-- The machine right after reset, under the spec's default configuration (R8, R320). -/
def State.reset : State := State.init defaultConfig

end Sys2Proof.Machine
end

