-- ==== Sys2Proof/Machine/Ops.lean ====
section
/-! DEFINITION. The named operations over registers, memory and the stack, the fetch, and how a step ends: with a status,
a fault (R283), the unimplemented path (R115) or not at all (R117). -/

namespace Sys2Proof.Machine

/-- What an instruction rule answers: the state it leaves, or the fault it raises. -/
abbrev Result := Host.Outcome State Fault Refusal

/-! ### Registers -/

/-- `V[r]` (R11). -/
def State.getV (s : State) (r : RegIx) : Byte := s.v.get r

/-- `V[r] <- b` (R11). -/
def State.setV (s : State) (r : RegIx) (b : Byte) : State := { s with v := s.v.set r b }

/-- All sixteen registers at once. -/
def State.setRegs (s : State) (v : Vector Byte 16) : State := { s with v := v }

/-- `I <- a`. -/
def State.setI (s : State) (a : Word) : State := { s with i := a }

/-- `PC <- t`. -/
def State.setPc (s : State) (t : Word) : State := { s with pc := t }

/-- `DT <- b`. -/
def State.setDt (s : State) (b : Byte) : State := { s with dt := b }

/-- `ST <- b`. -/
def State.setSt (s : State) (b : Byte) : State := { s with st := b }

/-- The whole framebuffer. -/
def State.setFb (s : State) (fb : Framebuffer) : State := { s with fb := fb }

/-- The key-state, for the host's port only (R32). -/
def State.setKeys (s : State) (k : KeyState) : State := { s with keys := k }

/-- The run state. -/
def State.setRun (s : State) (r : RunState) : State := { s with run := r }

/-- The status output. -/
def State.setStatus (s : State) (c : Status) : State := { s with status := c }

/-- One free value has been taken (log entry 2). -/
def State.countDraw (s : State) : State := { s with draws := s.draws + 1 }

/-! ### Memory -/

/-- The reset content of address `a`: the font byte inside `FONT_BASE .. FONT_BASE + 79`, else 0 (R320, R322). It is
what an unlisted address reads as. -/
def unlistedByte (fontBase a : Nat) : Byte :=
  if fontBase ≤ a ∧ a < fontBase + fontSize then (fontTable[a - fontBase]?).getD 0 else 0

/-- One byte of a memory. -/
def Memory.read (fontBase : Nat) : List Host.Cell → Nat → Byte
  | [], a => unlistedByte fontBase a
  | (k, v) :: rest, a => if a = k then v else Memory.read fontBase rest a

/-- The cell for `b` at `a` put before `rest`, or none where `b` is the reset content of `a`. -/
def Memory.put (fontBase a : Nat) (b : Byte) (rest : List Host.Cell) : List Host.Cell :=
  if b = unlistedByte fontBase a then rest else (a, b) :: rest

/-- Write one byte, keeping the canonical form. -/
def Memory.write (fontBase : Nat) : List Host.Cell → Nat → Byte → List Host.Cell
  | [], a, b => Memory.put fontBase a b []
  | (k, v) :: rest, a, b =>
    if a < k then Memory.put fontBase a b ((k, v) :: rest)
    else if a = k then Memory.put fontBase a b rest
    else (k, v) :: Memory.write fontBase rest a b

/-- The cells from address `lo` on: strictly rising, below MEM_SIZE, none equal to its reset content. -/
def Memory.wfFrom (fontBase : Nat) : Nat → List Host.Cell → Bool
  | _, [] => true
  | lo, (k, v) :: rest =>
    decide (lo ≤ k) && decide (k < memSize) && decide (v ≠ unlistedByte fontBase k) &&
      Memory.wfFrom fontBase (k + 1) rest

/-- The canonical form of memory: equal memories are equal lists. -/
def Memory.wf (fontBase : Nat) (m : List Host.Cell) : Bool := Memory.wfFrom fontBase 0 m

/-- `MemRead(a, 1)` at an address already checked (R56). -/
def State.readByte (s : State) (a : Nat) : Byte := Memory.read s.cfg.fontBase s.mem a

/-- `MemWrite(a, 1, b)` at an address already checked (R56). -/
def State.writeByte (s : State) (a : Nat) (b : Byte) : State :=
  { s with mem := Memory.write s.cfg.fontBase s.mem a b }

/-- The bytes at `base .. base + n - 1`, read in rising order (R61). -/
def State.readBytes (s : State) : Nat → Nat → List Byte
  | _, 0 => []
  | base, n + 1 => s.readByte base :: s.readBytes (base + 1) n

/-- Write bytes from `base` on, in rising order (R61). -/
def State.writeBytes (s : State) : Nat → List Byte → State
  | _, [] => s
  | base, b :: bs => (s.writeByte base b).writeBytes (base + 1) bs

/-- The lowest address of `base .. base + n - 1` that is at or above MEM_SIZE, if any. Addresses are naturals and never
wrap (R54, R55). -/
def firstOutOfRange (base n : Nat) : Option Nat :=
  if n = 0 ∨ base + n ≤ memSize then none else some (max base memSize)

/-- Check an instruction's whole range before its first effect (R61): the fault of the lowest address out of range, or
what the instruction does. -/
def checked (base n : Nat) (k : Result) : Result :=
  match firstOutOfRange base n with
  | some a => .fault (.memOutOfRange a)
  | none => k

/-! ### The return-address stack -/

/-- Push (R29); none is Overflow, and nothing is written. -/
def State.push (s : State) (a : Word) : Option State :=
  if s.sp = s.cfg.stackDepth then none
  else some { s with stack := s.stack.set s.sp a, sp := s.sp + 1 }

/-- Pop (R30); none is Underflow, and nothing is changed. The popped entry keeps its value. The default of `getD` is
reached in no state where the stack has its depth (log entry 7). -/
def State.pop (s : State) : Option (Word × State) :=
  if s.sp = 0 then none
  else some ((s.stack[s.sp - 1]?).getD 0, { s with sp := s.sp - 1 })

/-! ### How an instruction ends -/

/-- The instruction is done and the step's status is `Ok` (R281 code 0). -/
def complete (s : State) : Result := .next (s.setStatus .ok)

/-- Back to the instruction's own address, so that the next step fetches it again: `PC <- trunc_16(PC - 2)` (R153,
R255). -/
def State.rollBack (s : State) : State := s.setPc (s.pc - 2)

/-- A skip: exactly 2 more when the condition holds (R159). -/
def State.skipIf (s : State) (c : Bool) : State := if c then s.setPc (s.pc + 2) else s

/-- End the run with a reason and report it (R35). -/
def State.endRun (s : State) (r : EndReason) (c : Status) : State := (s.setRun (.ended r)).setStatus c

/-- Take a fault in the state `s` of the start of the step: every other piece of state is kept, PC included, and the run
is ended (R283, R119). -/
def takeFault (f : Fault) (s : State) : State := s.endRun (.fault f) (.fault f)

/-- The unimplemented path: a report and nothing else (R115). -/
def reportUnimplemented (w : Word) (s : State) : State := s.setStatus (.unimplemented w)

/-- A step asked for after the run has ended (R117). -/
def reportNotRunning (s : State) : State := s.setStatus .notRunning

/-! ### Fetch and advance -/

/-- The fetch (R111): two bytes, the one at the lower address in bits 15-8 (R57), or the fault of the lowest fetch
address out of range. -/
def fetch (s : State) : Except Fault Word :=
  if s.pc.toNat + 1 < memSize then .ok (s.readByte s.pc.toNat ++ s.readByte (s.pc.toNat + 1))
  else .error (.memOutOfRange (max s.pc.toNat memSize))

/-- The advance, before decode and for every word: `PC <- trunc_16(PC0 + 2)` (R112). -/
def advance (s : State) : State := s.setPc (s.pc + 2)

/-- What a step makes of an instruction's result, `s` being the state of the start of the step (R119). -/
def settle (s : State) (r : Result) : Result :=
  match r with
  | .next t => .next t
  | .fault f => .next (takeFault f s)
  | .refused e => .refused e

/-- `s` with the instruction word `w` at the address the next fetch reads, and running; where no fetch can succeed at
PC, PC is first put at PROGRAM_BASE (log entry 13). -/
def placeWord (s : State) (w : Word) : State :=
  let s' := if s.pc.toNat + 1 < memSize then s else s.setPc (BitVec.ofNat 16 programBase)
  (s'.writeBytes s'.pc.toNat (wordBytes w)).setRun .running

/-- The number of a status (R281). -/
def Status.code : Status → Nat
  | .ok => 0
  | .unimplemented _ => 1
  | .stackOverflowStall => 2
  | .fatalStackUnderflow => 3
  | .fault (.memOutOfRange _) => 4
  | .fault (.keyIndexOutOfRange _) => 5
  | .notRunning => 6
  | .romTooLarge _ => 7

end Sys2Proof.Machine
end

