-- ==== Sys2Proof/Machine/Flags.lean ====
section
/-! DEFINITION. The flag computations: what each instruction writes to VF (spec/10_state.md R22) and in which order
(spec/43_alu.md R190). Sums and differences are compared as exact naturals (R180). -/

namespace Sys2Proof.Machine

/-- A flag as VF holds it: 1 or 0. -/
def flagByte (f : Bool) : Byte := if f then 1 else 0

/-- The carry of ADD Vx, Vy: the exact sum exceeds 255 (R187). -/
def carryOut (a b : Byte) : Bool := decide (a.toNat + b.toNat > 255)

/-- The strict comparison of SUB and SUBN: equal operands give 0 (R188, R189, C8). -/
def strictlyAbove (a b : Byte) : Bool := decide (a.toNat > b.toNat)

/-- The bit a right shift drops (R191). -/
def droppedRight (v : Byte) : Bool := v.getLsbD 0

/-- The bit a left shift drops (R192). -/
def droppedLeft (v : Byte) : Bool := v.getLsbD 7

/-- `VF <- f`. -/
def State.setFlag (s : State) (f : Bool) : State := s.setV VF (flagByte f)

/-- `WriteResultAndFlag(X, r, f)`: the order of the two writes is ALU_FLAG_ORDER and matters when X = 15 (R190). -/
def State.writeResultAndFlag (s : State) (x : RegIx) (r : Byte) (f : Bool) : State :=
  match s.cfg.aluFlagOrder with
  | .flagThenResult => (s.setFlag f).setV x r
  | .resultThenFlag => (s.setV x r).setFlag f

/-- The result, then the flag: the fixed order of OR, AND, XOR and the shifts (R190). -/
def State.writeResultThenFlag (s : State) (x : RegIx) (r : Byte) (f : Bool) : State :=
  (s.setV x r).setFlag f

end Sys2Proof.Machine
end

