-- ==== Sys2Proof/Machine/Operands.lean ====
section
/-! DEFINITION. The operand forms of spec/30_encoding.md R82: addresses, the I-based ranges, runs of registers, decimal
digits, glyph addresses and keys. -/

namespace Sys2Proof.Machine

/-- `zext_16(NNN)` (R82). -/
def addrWord (nnn : Addr) : Word := nnn.setWidth 16

/-- The base of every I-based access, as an unbounded natural (R55). -/
def State.indexAddr (s : State) : Nat := s.i.toNat

/-- The target of JP V0, NNN: not masked to 12 bits (R158). -/
def State.indexedTarget (s : State) (nnn : Addr) : Word := addrWord nnn + (s.getV V0).setWidth 16

/-- How many registers FX55 and FX65 move: V0..VX (R82). -/
def regCount (x : RegIx) : Nat := x.val + 1

/-- The values of V0..VX, in order (R224). -/
def State.leadingRegs (s : State) (x : RegIx) : List Byte := s.v.toList.take (regCount x)

/-- Write bytes into the registers from number `k` on, in order (R225). -/
def loadInto : Nat → List Byte → Vector Byte 16 → Vector Byte 16
  | _, [], v => v
  | k, b :: bs, v => loadInto (k + 1) bs (v.setIfInBounds k b)

/-- `I <- trunc_16(I + X + 1)` (R224, R225). -/
def State.indexPastRegs (s : State) (x : RegIx) : Word := s.i + BitVec.ofNat 16 (regCount x)

/-- The hundreds, tens and ones digits of a byte (R223). -/
def bcdDigits (v : Byte) : List Byte :=
  [BitVec.ofNat 8 (v.toNat / 100), BitVec.ofNat 8 (v.toNat / 10 % 10), BitVec.ofNat 8 (v.toNat % 10)]

/-- `trunc_16(FONT_BASE + 5 * Vx)`, with Vx not masked (R222). -/
def State.glyphAddr (s : State) (d : Byte) : Word := BitVec.ofNat 16 (s.cfg.fontBase + 5 * d.toNat)

/-- `lowest(S)`: the smallest key pressed, none when no key is (R254). -/
def lowestKey (k : KeyState) : Option Nat := k.toList.findIdx? id

/-- Some key is pressed (R255). -/
def anyKey (k : KeyState) : Bool := (lowestKey k).isSome

/-- The key that SKP and SKNP read: the flag of key `v`, or the fault of an index above 15 (R250, R252). -/
def State.keyAt (s : State) (v : Byte) : Except Fault Bool :=
  if h : v.toNat < 16 then .ok (s.keys.get ⟨v.toNat, h⟩) else .error (.keyIndexOutOfRange v)

end Sys2Proof.Machine
end

