-- ==== Sys2Proof/Machine/Alu.lean ====
section
/-! DEFINITION. ALU and logic operations (spec/43_alu.md). Results are computed exactly on naturals or integers and then
reduced modulo 256; operands are read before any write (R180). -/

namespace Sys2Proof.Machine

/-- `trunc_8(a + b)` (R182, R187). -/
def sumByte (a b : Byte) : Byte := BitVec.ofNat 8 (a.toNat + b.toNat)

/-- `(a - b) mod 256` (R188, R189). -/
def diffByte (a b : Byte) : Byte := BitVec.ofInt 8 ((a.toNat : Int) - (b.toNat : Int))

/-- `v div 2` (R191). -/
def halfByte (v : Byte) : Byte := BitVec.ofNat 8 (v.toNat / 2)

/-- `trunc_8(v * 2)` (R192). -/
def doubleByte (v : Byte) : Byte := BitVec.ofNat 8 (v.toNat * 2)

/-- LD Vx, KK (R181). -/
def execLdImm (x : RegIx) (kk : Byte) (s : State) : Result := complete (s.setV x kk)

/-- ADD Vx, KK: no flag (R182). -/
def execAddImm (x : RegIx) (kk : Byte) (s : State) : Result := complete (s.setV x (sumByte (s.getV x) kk))

/-- LD Vx, Vy (R183). -/
def execLdReg (x y : RegIx) (s : State) : Result := complete (s.setV x (s.getV y))

/-- OR Vx, Vy, and VF <- 0 last (R184). -/
def execOrReg (x y : RegIx) (s : State) : Result :=
  complete (s.writeResultThenFlag x (s.getV x ||| s.getV y) false)

/-- AND Vx, Vy, and VF <- 0 last (R185). -/
def execAndReg (x y : RegIx) (s : State) : Result :=
  complete (s.writeResultThenFlag x (s.getV x &&& s.getV y) false)

/-- XOR Vx, Vy, and VF <- 0 last (R186). -/
def execXorReg (x y : RegIx) (s : State) : Result :=
  complete (s.writeResultThenFlag x (s.getV x ^^^ s.getV y) false)

/-- ADD Vx, Vy with the carry in VF (R187, R190). -/
def execAddReg (x y : RegIx) (s : State) : Result :=
  complete (s.writeResultAndFlag x (sumByte (s.getV x) (s.getV y)) (carryOut (s.getV x) (s.getV y)))

/-- SUB Vx, Vy: VF = 1 iff Vx > Vy (R188, R190). -/
def execSubReg (x y : RegIx) (s : State) : Result :=
  complete (s.writeResultAndFlag x (diffByte (s.getV x) (s.getV y)) (strictlyAbove (s.getV x) (s.getV y)))

/-- SUBN Vx, Vy: Vy - Vx, VF = 1 iff Vy > Vx (R189, R190). -/
def execSubnReg (x y : RegIx) (s : State) : Result :=
  complete (s.writeResultAndFlag x (diffByte (s.getV y) (s.getV x)) (strictlyAbove (s.getV y) (s.getV x)))

/-- SHR Vx, Vy: always from Vy; VF last (R191). -/
def execShrReg (x y : RegIx) (s : State) : Result :=
  complete (s.writeResultThenFlag x (halfByte (s.getV y)) (droppedRight (s.getV y)))

/-- SHL Vx, Vy: always from Vy; VF last (R192). -/
def execShlReg (x y : RegIx) (s : State) : Result :=
  complete (s.writeResultThenFlag x (doubleByte (s.getV y)) (droppedLeft (s.getV y)))

/-- The effect of RND Vx, KK for a drawn byte `r` (R193). -/
def rndWith (r : Byte) (x : RegIx) (kk : Byte) (s : State) : State := s.setV x (r &&& kk)

/-- RND Vx, KK: one draw per execution, a free value (R38, R193; log entry 2). -/
def execRnd (x : RegIx) (kk : Byte) (s : State) : Result :=
  complete (rndWith (Config.randByte s.draws) x kk s).countDraw

end Sys2Proof.Machine
end

