-- ==== Sys2Proof/Machine/Control.lean ====
section
/-! DEFINITION. Control transfer and skips (spec/42_control_flow.md). Each runs with PC already at PC0 + 2 (R112). -/

namespace Sys2Proof.Machine

/-- RET (R150): pop into PC; on an empty stack the run ends, and PC stays PC0 + 2 (D35). -/
def execRet (s : State) : Result :=
  match s.pop with
  | none => .next (s.endRun .stackUnderflow .fatalStackUnderflow)
  | some (a, t) => complete (t.setPc a)

/-- JP NNN (R151); a jump to itself is no special case (R152). -/
def execJp (nnn : Addr) (s : State) : Result := complete (s.setPc (addrWord nnn))

/-- CALL NNN (R153): push PC and jump; on a full stack PC goes back to the CALL and the stall is reported. -/
def execCall (nnn : Addr) (s : State) : Result :=
  match s.push s.pc with
  | none => .next (s.rollBack.setStatus .stackOverflowStall)
  | some t => complete (t.setPc (addrWord nnn))

/-- SE Vx, KK (R154). -/
def execSeImm (x : RegIx) (kk : Byte) (s : State) : Result := complete (s.skipIf (s.getV x == kk))

/-- SNE Vx, KK (R155). -/
def execSneImm (x : RegIx) (kk : Byte) (s : State) : Result := complete (s.skipIf (s.getV x != kk))

/-- SE Vx, Vy, for every N (R156, R88). -/
def execSeReg (x y : RegIx) (_n : Nibble) (s : State) : Result := complete (s.skipIf (s.getV x == s.getV y))

/-- SNE Vx, Vy, for every N (R157, R88). -/
def execSneReg (x y : RegIx) (_n : Nibble) (s : State) : Result := complete (s.skipIf (s.getV x != s.getV y))

/-- JP V0, NNN (R158). -/
def execJpV0 (nnn : Addr) (s : State) : Result := complete (s.setPc (s.indexedTarget nnn))

end Sys2Proof.Machine
end

