-- ==== Sys2Proof/Machine/Sprite.lean ====
section
/-! DEFINITION. The framebuffer's XOR write logic (spec/41_display.md R131-R134): one pixel, one row of eight columns,
the rows of a sprite in order. -/

namespace Sys2Proof.Machine

/-- `fb[x][y]` (R33). -/
def pixel (fb : Framebuffer) (x : Fin 64) (y : Fin 32) : Bool := (fb.get x).get y

/-- `fb[x][y] <- fb[x][y] xor 1`. -/
def togglePixel (fb : Framebuffer) (x : Fin 64) (y : Fin 32) : Framebuffer :=
  fb.set x ((fb.get x).set y (!pixel fb x y))

/-- Every pixel off (R130). -/
def clearFb : Framebuffer := Vector.replicate 64 (Vector.replicate 32 false)

/-- The bit of a sprite byte that column `col` shows: bit 7 is the leftmost (R132). -/
def spriteBit (b : Byte) (col : Nat) : Bool := b.getLsbD (7 - col)

/-- The bound test of the clip, DRAW_CLIP (R133). -/
def visible (c : DrawClip) (vx vy col row : Nat) : Bool :=
  match c with
  | .unwrappedClip => decide (vx + col < 64) && decide (vy + row < 32)
  | .wrappedStartClip => decide (vx % 64 + col < 64) && decide (vy % 32 + row < 32)

/-- A framebuffer being drawn to, and whether a pixel already on has been toggled so far (R134). -/
structure Canvas where
  fb : Framebuffer
  hit : Bool
  deriving DecidableEq, Repr

/-- The column `(vx + col) mod 64` (R131). -/
def pixelColumn (vx col : Nat) : Fin 64 := Fin.ofNat 64 (vx + col)

/-- The row `(vy + row) mod 32` (R131). -/
def pixelRow (vy row : Nat) : Fin 32 := Fin.ofNat 32 (vy + row)

/-- One column of one row of a sprite (R131): a set and visible bit toggles its pixel; a pixel that was on is a
collision, and a collision stays (R134). -/
def drawPixel (c : DrawClip) (vx vy row : Nat) (b : Byte) (k : Canvas) (col : Nat) : Canvas :=
  if spriteBit b col && visible c vx vy col row then
    { fb := togglePixel k.fb (pixelColumn vx col) (pixelRow vy row)
      hit := k.hit || pixel k.fb (pixelColumn vx col) (pixelRow vy row) }
  else k

/-- The eight columns of a row (R131). -/
def drawRow (c : DrawClip) (vx vy row : Nat) (b : Byte) (k : Canvas) : Canvas :=
  (List.range 8).foldl (drawPixel c vx vy row b) k

/-- The rows of a sprite, from row `row` on (R131). -/
def drawRows (c : DrawClip) (vx vy : Nat) : Nat → List Byte → Canvas → Canvas
  | _, [], k => k
  | row, b :: bs, k => drawRows c vx vy (row + 1) bs (drawRow c vx vy row b k)

/-- A whole sprite drawn from its first row, VF's collision flag reset before (R131). -/
def drawSprite (c : DrawClip) (vx vy : Nat) (bytes : List Byte) (fb : Framebuffer) : Canvas :=
  drawRows c vx vy 0 bytes { fb := fb, hit := false }

end Sys2Proof.Machine
end

