-- ==== Sys2Proof/Machine/Display.lean ====
section
/-! DEFINITION. The display instructions of spec/41_display.md, and SYS NNN of spec/40_dispatch.md R116. Each runs with
PC already at PC0 + 2 (R112). -/

namespace Sys2Proof.Machine

/-- CLS (R130). -/
def execCls (s : State) : Result := complete (s.setFb clearFb)

/-- SYS NNN: the unimplemented path with the word `0NNN`, and no other effect (R116). -/
def execSys (nnn : Addr) (s : State) : Result := .next (reportUnimplemented (addrWord nnn) s)

/-- DRW Vx, Vy, N (R131): the whole range is checked first (R135), Vx, Vy and I are read before VF is written (R136). -/
def execDrw (x y : RegIx) (n : Nibble) (s : State) : Result :=
  checked s.indexAddr n.toNat
    (let k := drawSprite s.cfg.drawClip (s.getV x).toNat (s.getV y).toNat (s.readBytes s.indexAddr n.toNat) s.fb
     complete ((s.setFb k.fb).setFlag k.hit))

end Sys2Proof.Machine
end

