-- ==== Sys2Proof/Machine/Index.lean ====
section
/-! DEFINITION. The index register, BCD, and register store and load (spec/44_index_memory.md). A range is checked whole
before anything is written (R61). -/

namespace Sys2Proof.Machine

/-- LD I, NNN (R220). -/
def execLdI (nnn : Addr) (s : State) : Result := complete (s.setI (addrWord nnn))

/-- ADD I, Vx: modulo 2^16, no flag, no fault (R221). -/
def execAddI (x : RegIx) (s : State) : Result := complete (s.setI (s.i + (s.getV x).setWidth 16))

/-- LD F, Vx (R222). -/
def execLdF (x : RegIx) (s : State) : Result := complete (s.setI (s.glyphAddr (s.getV x)))

/-- LD B, Vx (R223). -/
def execLdB (x : RegIx) (s : State) : Result :=
  checked s.indexAddr 3 (complete (s.writeBytes s.indexAddr (bcdDigits (s.getV x))))

/-- LD [I], Vx, and I past the bytes stored (R224). -/
def execStoreRegs (x : RegIx) (s : State) : Result :=
  checked s.indexAddr (regCount x)
    (complete ((s.writeBytes s.indexAddr (s.leadingRegs x)).setI (s.indexPastRegs x)))

/-- LD Vx, [I], and I past the bytes loaded (R225). -/
def execLoadRegs (x : RegIx) (s : State) : Result :=
  checked s.indexAddr (regCount x)
    (complete ((s.setRegs (loadInto 0 (s.readBytes s.indexAddr (regCount x)) s.v)).setI (s.indexPastRegs x)))

end Sys2Proof.Machine
end

