-- ==== Sys2Proof/Machine/Timers.lean ====
section
/-! DEFINITION. Key and timer instructions and the wait for a key (spec/45_timers_keys.md). -/

namespace Sys2Proof.Machine

/-- SKP Vx (R250, R252). -/
def execSkp (x : RegIx) (s : State) : Result :=
  match s.keyAt (s.getV x) with
  | .error f => .fault f
  | .ok pressed => complete (s.skipIf pressed)

/-- SKNP Vx (R251, R252). -/
def execSknp (x : RegIx) (s : State) : Result :=
  match s.keyAt (s.getV x) with
  | .error f => .fault f
  | .ok pressed => complete (s.skipIf (!pressed))

/-- LD Vx, DT (R253). -/
def execLdVxDt (x : RegIx) (s : State) : Result := complete (s.setV x s.dt)

/-- LD DT, Vx (R257). -/
def execLdDtVx (x : RegIx) (s : State) : Result := complete (s.setDt (s.getV x))

/-- LD ST, Vx (R258). -/
def execLdStVx (x : RegIx) (s : State) : Result := complete (s.setSt (s.getV x))

/-- `S2`, the key-state of the re-check (R254): a free value under `FreshSample` (log entry 2), the key-state itself
under `SameSample`. -/
def State.recheckSample (s : State) : KeyState :=
  match s.cfg.keyRecheck with
  | .freshSample => Config.recheckKeys s.draws
  | .sameSample => s.keys

/-- The re-check has been read: a draw has been taken under `FreshSample` only. -/
def State.countRecheck (s : State) : State :=
  match s.cfg.keyRecheck with
  | .freshSample => s.countDraw
  | .sameSample => s

/-- The effect of LD Vx, K once key `k` is found, for a re-check sample `s2`: Vx is written, and PC goes back while some
key of the sample is pressed (R255). -/
def keyFound (s2 : KeyState) (x : RegIx) (k : Nat) (s : State) : State :=
  if anyKey s2 then (s.setV x (BitVec.ofNat 8 k)).rollBack else s.setV x (BitVec.ofNat 8 k)

/-- LD Vx, K (R255, R265): with no key pressed PC goes back and S2 is not read. -/
def execLdVxK (x : RegIx) (s : State) : Result :=
  match lowestKey s.keys with
  | none => complete s.rollBack
  | some k => complete (keyFound s.recheckSample x k s).countRecheck

end Sys2Proof.Machine
end

