-- ==== Sys2Proof/Machine/Step.lean ====
section
/-! DEFINITION. The step, whole (spec/40_dispatch.md R119), and the placing of one instruction where it is fetched. -/

namespace Sys2Proof.Machine

/-- One fetch-decode-execute cycle (R110, R119). It answers a next state in every state: a fault is taken by `settle`
and `takeFault` (R283). -/
def step (s : State) : Host.Outcome State Fault Refusal :=
  match s.run with
  | .ended _ => .next (reportNotRunning s)
  | .running =>
    match fetch s with
    | .error f => .next (takeFault f s)
    | .ok w =>
      match decodeWord s.cfg.class0Match w with
      | .error _ => .next (reportUnimplemented w (advance s))
      | .ok i => settle s (exec i (advance s))

/-- `s` with the table's word `w` of `nbits` bits where the next step fetches (log entry 13). -/
def State.withFetchWord (s : State) (nbits w : Nat) : State := placeWord s (tableWord nbits w)

end Sys2Proof.Machine
end

