-- ==== Sys2Proof/Machine/Accesses.lean ====
section
/-! DEFINITION. The accesses an instruction makes on the memory port, in order (spec/20_memory.md R51, R61), when none is
out of range. -/

namespace Sys2Proof.Machine

/-- One byte access (R56). -/
inductive MemAccess where
  | read (a : Nat)
  | write (a : Nat)
  deriving DecidableEq, Repr

/-- The addresses `base .. base + n - 1`, rising. -/
def addrRange : Nat → Nat → List Nat
  | _, 0 => []
  | base, n + 1 => base :: addrRange (base + 1) n

/-- The accesses after the fetch, `s` being the state the instruction runs in (R61). -/
def dataAccesses (i : Instr) (s : State) : List MemAccess :=
  match i with
  | .drw _ _ n => (addrRange s.indexAddr n.toNat).map .read
  | .ldB _ => (addrRange s.indexAddr 3).map .write
  | .storeRegs x => (addrRange s.indexAddr (regCount x)).map .write
  | .loadRegs x => (addrRange s.indexAddr (regCount x)).map .read
  | .cls => []
  | .ret => []
  | .sys _ => []
  | .jp _ => []
  | .call _ => []
  | .seImm _ _ => []
  | .sneImm _ _ => []
  | .seReg _ _ _ => []
  | .ldImm _ _ => []
  | .addImm _ _ => []
  | .ldReg _ _ => []
  | .orReg _ _ => []
  | .andReg _ _ => []
  | .xorReg _ _ => []
  | .addReg _ _ => []
  | .subReg _ _ => []
  | .shrReg _ _ => []
  | .subnReg _ _ => []
  | .shlReg _ _ => []
  | .sneReg _ _ _ => []
  | .ldI _ => []
  | .jpV0 _ => []
  | .rnd _ _ => []
  | .skp _ => []
  | .sknp _ => []
  | .ldVxDt _ => []
  | .ldVxK _ => []
  | .ldDtVx _ => []
  | .ldStVx _ => []
  | .addI _ => []
  | .ldF _ => []

/-- The accesses of a whole step from the state `s` of its start that runs `i`: the two fetch reads, then the
instruction's own (R61). -/
def memAccesses (i : Instr) (s : State) : List MemAccess :=
  .read s.pc.toNat :: .read (s.pc.toNat + 1) :: dataAccesses i (advance s)

end Sys2Proof.Machine
end

