-- ==== Sys2Proof/Machine/HostPorts.lean ====
section
/-! DEFINITION. The host's side of the ports of spec/60_exceptions.md R300: what the host may do BETWEEN steps
(R62, R302; log entry 8), the timer tick among it (spec/45_timers_keys.md R262), and the frame (R301). -/

namespace Sys2Proof.Machine

/-- The `init` port (R320, R321): the whole initialization again, the ROM erased. The count of free values taken is the
model's own and goes on, so that no later draw repeats an earlier one (log entry 5). -/
def hostInit (s : State) : State := { State.init s.cfg with draws := s.draws }

/-- The longest ROM: MEM_SIZE - PROGRAM_BASE = 3584 bytes (R9). -/
def maxRom : Nat := memSize - programBase

/-- The `rom_load` port (R323): rejected whole when too long, else copied at PROGRAM_BASE; only memory and the load
status change. -/
def romLoad (bytes : List Byte) (s : State) : State :=
  if bytes.length > maxRom then s.setStatus (.romTooLarge bytes.length)
  else (s.writeBytes programBase bytes).setStatus .ok

/-- The `key_state` port (R300): `key[k] <- in[k]`. -/
def writeKeys (k : KeyState) (s : State) : State := s.setKeys k

/-- One count of a timer, which clamps at zero (R262). -/
def countDown (b : Byte) : Byte := if b.toNat > 0 then b - 1 else b

/-- The `tick` port (R262); the sound timer counts under SOUND_TIMER_TICKS. -/
def tick (s : State) : State :=
  (s.setDt (countDown s.dt)).setSt (if s.cfg.soundTimerTicks then countDown s.st else s.st)

/-- `n` steps in a row, stopping at the first one that answers no next state (none does). -/
def runSteps : Nat → State → Result
  | 0, s => .next s
  | n + 1, s =>
    match step s with
    | .next t => runSteps n t
    | .fault f => .fault f
    | .refused r => .refused r

/-- One host frame (R301): key-state write, tick, STEPS_PER_FRAME steps; the host then reads `fb`. -/
def frame (k : KeyState) (s : State) : Result :=
  let s' := tick (writeKeys k s)
  runSteps s'.cfg.stepsPerFrame s'

/-- The output ports (R300). -/
structure HostView where
  status : Status
  runState : RunState
  fb : Framebuffer
  sound : Byte
  deriving DecidableEq, Repr

/-- What the host sees between steps (R292, R264). -/
def hostView (s : State) : HostView where
  status := s.status
  runState := s.run
  fb := s.fb
  sound := s.st

end Sys2Proof.Machine
end

