-- ==== Sys2Proof/Safety.lean ====
section
/-! DEFINITION. What counts as a safe run and the terms claims use: the machine's invariant, the good and the bad end of
a run (spec/60_exceptions.md R304), and what an instruction leaves unchanged. -/

namespace Sys2Proof.Machine

/-- The invariant of the machine: an admitted configuration (R325), memory in canonical form (R50), and a stack of the
configured depth that SP stays within (R27, R28). -/
abbrev State.Inv (s : State) : Prop :=
  s.cfg.valid = true ∧ Memory.wf s.cfg.fontBase s.mem = true ∧
    s.stack.length = s.cfg.stackDepth ∧ s.sp ≤ s.cfg.stackDepth

/-- The good end of a run that R304 recommends: running, and the word at PC is `1NNN` with NNN = PC. -/
def State.goodEnd (s : State) : Bool :=
  decide (s.run = .running) &&
    (match fetch s with
     | .ok w => fieldC w == 0x1 && addrWord (fieldNNN w) == s.pc
     | .error _ => false)

/-- The bad end of a run: any `Ended(...)` (R304). A claim about a run counts only while this is false (R283). -/
def State.badEnd (s : State) : Bool := decide (s.run ≠ .running)

/-- What an instruction may change, for frame statements; everything else it leaves unchanged. -/
structure Writes where
  /-- The general registers it may write. -/
  regs : List RegIx := []
  i : Bool := false
  pc : Bool := false
  /-- SP and the stack entries. -/
  stack : Bool := false
  dt : Bool := false
  st : Bool := false
  fb : Bool := false
  /-- The addresses it may store to. -/
  mem : List Nat := []
  run : Bool := false
  draws : Bool := false

/-- `t` differs from `s` in nothing but the status output and what `w` names: the frame of an instruction. Memory is
compared byte by byte, at every address. -/
structure FrameOf (w : Writes) (s t : State) : Prop where
  regs : ∀ r, r ∉ w.regs → t.getV r = s.getV r
  i : w.i = false → t.i = s.i
  pc : w.pc = false → t.pc = s.pc
  sp : w.stack = false → t.sp = s.sp
  stack : w.stack = false → t.stack = s.stack
  dt : w.dt = false → t.dt = s.dt
  st : w.st = false → t.st = s.st
  fb : w.fb = false → t.fb = s.fb
  mem : ∀ a, a ∉ w.mem → t.readByte a = s.readByte a
  run : w.run = false → t.run = s.run
  draws : w.draws = false → t.draws = s.draws
  keys : t.keys = s.keys
  cfg : t.cfg = s.cfg

/-- The next step of `s` runs `i`: the run goes on, the fetch is in range, and the two bytes at PC decode to `i`
(R111, R113). -/
abbrev State.AtInstr (s : State) (i : Instr) : Prop :=
  s.run = .running ∧ s.pc.toNat + 1 < memSize ∧
    decode s.cfg.class0Match [s.readByte s.pc.toNat, s.readByte (s.pc.toNat + 1)] = .ok (i, [])

/-- A result `r` and a flag `f` written to Vx and VF, in the order of ALU_FLAG_ORDER where X = 15 (R190). -/
def ResultAndFlag (s t : State) (x : RegIx) (r f : Nat) : Prop :=
  (x ≠ VF → (t.getV x).toNat = r ∧ (t.getV VF).toNat = f) ∧
    (x = VF → s.cfg.aluFlagOrder = .flagThenResult → (t.getV VF).toNat = r) ∧
    (x = VF → s.cfg.aluFlagOrder = .resultThenFlag → (t.getV VF).toNat = f)

/-- The clip of DRW, in the words of R133. -/
def InClip (c : DrawClip) (vx vy col row : Nat) : Prop :=
  match c with
  | .unwrappedClip => vx + col < 64 ∧ vy + row < 32
  | .wrappedStartClip => vx % 64 + col < 64 ∧ vy % 32 + row < 32

/-- DRW Vx, Vy, N in state `s` toggles the pixel (px, py): some set bit of some of its rows lies there and inside the
clip (R131-R133). -/
def SpriteTouches (s : State) (x y : RegIx) (n : Nibble) (px : Fin 64) (py : Fin 32) : Prop :=
  ∃ row col, row < n.toNat ∧ col < 8 ∧ (s.readByte (s.i.toNat + row)).getLsbD (7 - col) = true ∧
    InClip s.cfg.drawClip (s.getV x).toNat (s.getV y).toNat col row ∧
    px.val = ((s.getV x).toNat + col) % 64 ∧ py.val = ((s.getV y).toNat + row) % 32

/-- The byte at `a` once the bytes `bs` have been stored from `base` on, in the state `s` before the store: the byte
stored there, else the byte that was there (R59, R65). -/
def overlaid (s : State) (base : Nat) (bs : List Byte) (a : Nat) : Byte :=
  if base ≤ a then (bs[a - base]?).getD (s.readByte a) else s.readByte a

/-- Push every address of a list, in order; none as soon as one overflows (R29). -/
def pushAll : List Word → State → Option State
  | [], s => some s
  | a :: as, s =>
    match s.push a with
    | none => none
    | some t => pushAll as t

/-- Pop `n` addresses, the first popped first; none as soon as one underflows (R30). -/
def popMany : Nat → State → Option (List Word × State)
  | 0, s => some ([], s)
  | n + 1, s =>
    match s.pop with
    | none => none
    | some (a, t) =>
      match popMany n t with
      | none => none
      | some (as, u) => some (a :: as, u)

/-- What `exec` may answer for an instruction, by the table of R284. -/
def statusAllowed (i : Instr) (r : Result) : Prop :=
  let ok := ∃ t, r = .next t ∧ t.status = .ok
  match i with
  | .sys nnn => ∃ t, r = .next t ∧ t.status = .unimplemented (addrWord nnn)
  | .ret => ok ∨ ∃ t, r = .next t ∧ t.status = .fatalStackUnderflow
  | .call _ => ok ∨ ∃ t, r = .next t ∧ t.status = .stackOverflowStall
  | .drw _ _ _ => ok ∨ ∃ a, r = .fault (.memOutOfRange a)
  | .ldB _ => ok ∨ ∃ a, r = .fault (.memOutOfRange a)
  | .storeRegs _ => ok ∨ ∃ a, r = .fault (.memOutOfRange a)
  | .loadRegs _ => ok ∨ ∃ a, r = .fault (.memOutOfRange a)
  | .skp _ => ok ∨ ∃ v, r = .fault (.keyIndexOutOfRange v)
  | .sknp _ => ok ∨ ∃ v, r = .fault (.keyIndexOutOfRange v)
  | .cls => ok
  | .jp _ => ok
  | .seImm _ _ => ok
  | .sneImm _ _ => ok
  | .seReg _ _ _ => ok
  | .ldImm _ _ => ok
  | .addImm _ _ => ok
  | .ldReg _ _ => ok
  | .orReg _ _ => ok
  | .andReg _ _ => ok
  | .xorReg _ _ => ok
  | .addReg _ _ => ok
  | .subReg _ _ => ok
  | .shrReg _ _ => ok
  | .subnReg _ _ => ok
  | .shlReg _ _ => ok
  | .sneReg _ _ _ => ok
  | .ldI _ => ok
  | .jpV0 _ => ok
  | .rnd _ _ => ok
  | .ldVxDt _ => ok
  | .ldVxK _ => ok
  | .ldDtVx _ => ok
  | .ldStVx _ => ok
  | .addI _ => ok
  | .ldF _ => ok

/-- The instruction writes VF: as a side effect (R22), or because it names VF as its destination. -/
def writesVF (i : Instr) : Bool :=
  match i with
  | .orReg _ _ => true
  | .andReg _ _ => true
  | .xorReg _ _ => true
  | .addReg _ _ => true
  | .subReg _ _ => true
  | .subnReg _ _ => true
  | .shrReg _ _ => true
  | .shlReg _ _ => true
  | .drw _ _ _ => true
  | .ldImm x _ => x == VF
  | .addImm x _ => x == VF
  | .ldReg x _ => x == VF
  | .rnd x _ => x == VF
  | .ldVxDt x => x == VF
  | .ldVxK x => x == VF
  | .loadRegs x => x == VF
  | .cls => false
  | .ret => false
  | .sys _ => false
  | .jp _ => false
  | .call _ => false
  | .seImm _ _ => false
  | .sneImm _ _ => false
  | .seReg _ _ _ => false
  | .sneReg _ _ _ => false
  | .ldI _ => false
  | .jpV0 _ => false
  | .skp _ => false
  | .sknp _ => false
  | .ldDtVx _ => false
  | .ldStVx _ => false
  | .addI _ => false
  | .ldF _ => false
  | .ldB _ => false
  | .storeRegs _ => false

/-- The state of a next outcome, for looking at a result. -/
def nextState? (r : Result) : Option State :=
  match r with
  | .next t => some t
  | .fault _ => none
  | .refused _ => none

end Sys2Proof.Machine
end

