-- ==== Sys2Proof/Certificates/Slice0/Obligations.lean ====
section
/-! DEFINITION. The statements for the provers, from the numbered rules of spec/. `exec` is always called in a state whose
PC already holds PC0 + 2 (R112). "Frame" is `FrameOf`: everything but the status output and what is named is unchanged,
memory at every address. -/

open Sys2Proof Sys2Proof.Machine

/-! ### Encoding -/

/-- Decoding the word of a well-formed instruction gives it back, under either CLASS0_MATCH (R85, R87, R91). The terms of
5XYN and 9XYN carry the nibble N that the instruction ignores, which is the model's choice (log entry 6). -/
def Obligations.DecodeInvertsEncode : Prop :=
  ∀ (m : Class0Match) (i : Instr), i.wellFormed m = true → decodeWord m (encode i) = .ok i

/-- What decodes is well-formed, and under FullWord every instruction word is the encoding of what it decodes to: no bit
of a word is lost. For classes 0x5 and 0x9 the second clause is the model's choice (log entry 6, DESIGN CHOICE): R91
answers SE Vx, Vy and SNE Vx, Vy with no N and R88 ignores N, and the clause holds there only because the model's terms
carry the ignored nibble. Elsewhere it follows from the fields of R81 and the patterns of R85. -/
def Obligations.EncodeInvertsDecode : Prop :=
  (∀ (m : Class0Match) (w : Word) (i : Instr), decodeWord m w = .ok i → i.wellFormed m = true) ∧
    ∀ (w : Word) (i : Instr), decodeWord .fullWord w = .ok i → encode i = w

/-- Words of the spec's examples decode to the instructions they stand for (R85, R86, examples of R130-R258). -/
def Obligations.ExampleWordsDecode : Prop :=
  decodeWord .fullWord 0x00E0 = .ok .cls ∧ decodeWord .fullWord 0x2300 = .ok (.call 0x300) ∧
    decodeWord .fullWord 0x6A05 = .ok (.ldImm 10 5) ∧ decodeWord .fullWord 0x8125 = .ok (.subReg 1 2) ∧
    decodeWord .fullWord 0xD015 = .ok (.drw 0 1 5) ∧ decodeWord .fullWord 0xF155 = .ok (.storeRegs 1) ∧
    decodeWord .fullWord 0xE5A1 = .ok (.sknp 5) ∧ decodeWord .fullWord 0x8AB8 = .error (.unimplemented 0x8AB8)

/-- The unimplemented words under FullWord are exactly those of the table of R89; the class-0 ones decode to SYS NNN,
whose meaning is the unimplemented path (R116). -/
def Obligations.UnimplementedWordsExactly : Prop :=
  ∀ w : Word,
    (decodeWord .fullWord w = .error (.unimplemented w) ∨ ∃ nnn, decodeWord .fullWord w = .ok (.sys nnn)) ↔
      (fieldC w = 0x0 ∧ w ≠ 0x00E0 ∧ w ≠ 0x00EE) ∨
      (fieldC w = 0x8 ∧ fieldN w ∈ [0x8#4, 0x9, 0xA, 0xB, 0xC, 0xD, 0xF]) ∨
      (fieldC w = 0xE ∧ fieldKK w ∉ [0x9E#8, 0xA1]) ∨
      (fieldC w = 0xF ∧ fieldKK w ∉ [0x07#8, 0x0A, 0x15, 0x18, 0x1E, 0x29, 0x33, 0x55, 0x65])

/-- CLASS0_MATCH (R87): which class-0 words are CLS and RET under each setting, every other one being SYS NNN, whose
meaning is the unimplemented path; the two settings differ only on 0x0XE0 and 0x0XEE with X not 0; FullWord is the
default. -/
def Obligations.Class0MatchSelects : Prop :=
  defaultConfig.class0Match = .fullWord ∧
    (∀ w : Word, fieldC w = 0x0 →
      decodeWord .fullWord w =
        (if w = 0x00E0 then .ok .cls else if w = 0x00EE then .ok .ret else .ok (.sys (fieldNNN w))) ∧
      decodeWord .lowByte w =
        (if fieldKK w = 0xE0 then .ok .cls else if fieldKK w = 0xEE then .ok .ret else .ok (.sys (fieldNNN w)))) ∧
    (∀ (nnn : Addr) (s : State), exec (.sys nnn) s = .next { s with status := .unimplemented (addrWord nnn) }) ∧
    ∀ w : Word, decodeWord .fullWord w ≠ decodeWord .lowByte w ↔
      fieldC w = 0x0 ∧ fieldX w ≠ 0 ∧ (fieldKK w = 0xE0 ∨ fieldKK w = 0xEE)

/-- Classes 0x5 and 0x9 are routed on the class alone and bits 3-0 are ignored (R88). -/
def Obligations.LowNibbleIgnored : Prop :=
  ∀ (m : Class0Match) (w : Word) (n : Nibble) (s : State),
    (fieldC w = 0x5 → decodeWord m w = .ok (.seReg (fieldX w) (fieldY w) (fieldN w)) ∧
      exec (.seReg (fieldX w) (fieldY w) (fieldN w)) s = exec (.seReg (fieldX w) (fieldY w) n) s) ∧
    (fieldC w = 0x9 → decodeWord m w = .ok (.sneReg (fieldX w) (fieldY w) (fieldN w)) ∧
      exec (.sneReg (fieldX w) (fieldY w) (fieldN w)) s = exec (.sneReg (fieldX w) (fieldY w) n) s)

/-! ### The step -/

/-- A step runs the decoded instruction after the advance of PC, and takes a fault it raises in the state of the start of
the step (R112, R114, R119, R283). -/
def Obligations.StepRunsDecodedInstruction : Prop :=
  ∀ (s : State) (i : Instr), s.AtInstr i →
    (∀ t, exec i { s with pc := s.pc + 2 } = .next t → step s = .next t) ∧
      ∀ f, exec i { s with pc := s.pc + 2 } = .fault f →
        step s = .next { s with run := .ended (.fault f), status := .fault f }

/-- The fetch (R111): big-endian, and out of range it is a fault that records the lowest bad address and changes no other
state, PC included. -/
def Obligations.FetchReadsOrFaults : Prop :=
  ∀ s : State,
    (s.pc.toNat + 1 < 4096 →
      fetch s = .ok (s.readByte s.pc.toNat ++ s.readByte (s.pc.toNat + 1))) ∧
    (4096 ≤ s.pc.toNat + 1 → s.run = .running →
      step s = .next { s with
        run := .ended (.fault (.memOutOfRange (max s.pc.toNat 4096)))
        status := .fault (.memOutOfRange (max s.pc.toNat 4096)) })

/-- An unimplemented word: the report, PC advanced, nothing else (R115). -/
def Obligations.UnimplementedStepOnlyAdvances : Prop :=
  ∀ (s : State) (w : Word) (e : DecodeError), s.run = .running → fetch s = .ok w →
    decodeWord s.cfg.class0Match w = .error e →
      step s = .next { s with pc := s.pc + 2, status := .unimplemented w }

/-- A step after the run has ended does nothing but report it (R117). -/
def Obligations.EndedStepReportsNotRunning : Prop :=
  ∀ (s : State) (r : EndReason), s.run = .ended r → step s = .next { s with status := .notRunning }

/-- However many steps the host asks for after the end, the run stays ended and nothing but the status output changes
(R35, R117). -/
def Obligations.EndedRunStaysEnded : Prop :=
  ∀ (n : Nat) (s : State) (r : EndReason), s.run = .ended r →
    runSteps (n + 1) s = .next { s with status := .notRunning }

/-- Every step answers a next state, from every state (R118, R281). -/
def Obligations.EveryStepAnswersNext : Prop :=
  ∀ s : State, ∃ t, step s = .next t

/-- The status of a step tells the run state after it: the last column of the table of R281 (R35). -/
def Obligations.StatusTellsRunState : Prop :=
  ∀ s t : State, step s = .next t →
    match t.status with
    | .ok => s.run = .running ∧ t.run = .running
    | .unimplemented _ => s.run = .running ∧ t.run = .running
    | .stackOverflowStall => s.run = .running ∧ t.run = .running
    | .fatalStackUnderflow => s.run = .running ∧ t.run = .ended .stackUnderflow
    | .fault f => s.run = .running ∧ t.run = .ended (.fault f)
    | .notRunning => s.run ≠ .running ∧ t.run = s.run
    | .romTooLarge _ => False

/-- Which instruction can raise which status (R284): the fetch fault of any word, the unimplemented words, and the table
of instructions, complete. -/
def Obligations.InstructionStatusTable : Prop :=
  (∀ s : State, s.run = .running → 0xFFF ≤ s.pc.toNat →
    ∃ a t, step s = .next t ∧ t.status = .fault (.memOutOfRange a)) ∧
  (∀ (s : State) (w : Word) (e : DecodeError), s.run = .running → fetch s = .ok w →
    decodeWord s.cfg.class0Match w = .error e → ∃ t, step s = .next t ∧ t.status = .unimplemented w) ∧
  ∀ (i : Instr) (s : State), statusAllowed i (exec i s)

/-! ### Invariants and whole-machine rules -/

/-- Every step keeps the machine's invariant: the configuration admitted, memory canonical and inside the address space,
the stack at its depth and SP within it (R28, R50, R325). -/
def Obligations.StepKeepsInvariant : Prop :=
  ∀ s t : State, s.Inv → step s = .next t → t.Inv

/-- The invariant holds after initialization under every admitted configuration, and after reset, which is the
initialization under the default configuration (R320, R325; log entry 18). -/
def Obligations.ResetMeetsInvariant : Prop :=
  State.reset = State.init defaultConfig ∧ State.reset.Inv ∧ ∀ c : Config, c.valid = true → (State.init c).Inv

/-- A frame of the host (R301, R263): it is the key-state write, one tick, then STEPS_PER_FRAME steps of the state they
leave; it answers a next state, keeps the invariant and the key-state the host wrote (R32); and where the run has ended it
still writes the keys and ticks once, its steps reporting NotRunning. -/
def Obligations.FrameKeepsInvariant : Prop :=
  ∀ (k : KeyState) (s : State), s.Inv →
    (∃ t, frame k s = .next t ∧ t.Inv ∧ t.keys = k ∧ t.cfg = s.cfg) ∧
    frame k s = runSteps s.cfg.stepsPerFrame { s with
      keys := k
      dt := BitVec.ofNat 8 (s.dt.toNat - 1)
      st := if s.cfg.soundTimerTicks then BitVec.ofNat 8 (s.st.toNat - 1) else s.st } ∧
    ∀ r, s.run = .ended r →
      ∃ t, frame k s = .next t ∧ t.status = .notRunning ∧ t.keys = k ∧ t.dt.toNat = s.dt.toNat - 1 ∧
        t.st.toNat = (if s.cfg.soundTimerTicks then s.st.toNat - 1 else s.st.toNat) ∧
        FrameOf { dt := true, st := true } { s with keys := k } t

/-- No step writes the key-state or the configuration (R32, D20). -/
def Obligations.StepNeverWritesKeys : Prop :=
  ∀ s t : State, step s = .next t → t.keys = s.keys ∧ t.cfg = s.cfg

/-- Only CALL and RET move the stack, and only CALL changes an entry (R27, R28). -/
def Obligations.OnlyCallAndRetMoveStack : Prop :=
  ∀ (i : Instr) (s t : State), exec i s = .next t →
    (t.sp ≠ s.sp → i = .ret ∨ ∃ nnn, i = .call nnn) ∧ (t.stack ≠ s.stack → ∃ nnn, i = .call nnn)

/-- The framebuffer is "Mutated only by clear and draw-sprite" (R33). -/
def Obligations.OnlyClsAndDrwChangeFramebuffer : Prop :=
  ∀ (i : Instr) (s t : State), exec i s = .next t → t.fb ≠ s.fb → i = .cls ∨ ∃ x y n, i = .drw x y n

/-- A byte of memory changes only where the instruction's accesses write it (R51, R61). -/
def Obligations.MemoryChangesOnlyAtWrites : Prop :=
  ∀ (i : Instr) (s t : State) (a : Nat), exec i s = .next t → t.readByte a ≠ s.readByte a →
    MemAccess.write a ∈ dataAccesses i s

/-- No instruction changes a timer but FX15 for DT and FX18 for ST (R31, R260). -/
def Obligations.TimersWrittenOnlyByLoads : Prop :=
  ∀ (i : Instr) (s t : State), exec i s = .next t →
    (t.dt ≠ s.dt → ∃ x, i = .ldDtVx x) ∧ (t.st ≠ s.st → ∃ x, i = .ldStVx x)

/-- No instruction writes VF but those of R22 and those that name VF as their destination (R22). -/
def Obligations.VfWrittenOnlyAsListed : Prop :=
  ∀ (i : Instr) (s t : State), exec i s = .next t → t.getV VF ≠ s.getV VF → writesVF i = true

/-- The run ends in an instruction only by RET with an empty stack (R35, R150). -/
def Obligations.OnlyEmptyRetEndsRun : Prop :=
  ∀ (i : Instr) (s t : State), exec i s = .next t → t.run ≠ s.run →
    i = .ret ∧ s.sp = 0 ∧ t.run = .ended .stackUnderflow

/-! ### Display -/

/-- CLS (R130). -/
def Obligations.ClsClearsEveryPixel : Prop :=
  ∀ s : State, ∃ t, exec .cls s = .next t ∧ t.status = .ok ∧ (∀ x y, pixel t.fb x y = false) ∧
    FrameOf { fb := true } s t

/-- DRW (R131): in range it toggles exactly the pixels its set and unclipped bits lie on, and VF says whether one of them
was on; out of range it faults. X and Y may be VF. -/
def Obligations.DrwXorsPixelsAndFlagsCollision : Prop :=
  ∀ (x y : RegIx) (n : Nibble) (s : State),
    (n = 0 ∨ s.i.toNat + n.toNat ≤ 4096 →
      ∃ t, exec (.drw x y n) s = .next t ∧ t.status = .ok ∧
        (∀ px py, pixel t.fb px py ≠ pixel s.fb px py ↔ SpriteTouches s x y n px py) ∧
        ((∃ px py, SpriteTouches s x y n px py ∧ pixel s.fb px py = true) → t.getV VF = 1) ∧
        ((∀ px py, SpriteTouches s x y n px py → pixel s.fb px py = false) → t.getV VF = 0) ∧
        FrameOf { regs := [VF], fb := true } s t) ∧
    (n ≠ 0 → 4096 < s.i.toNat + n.toNat →
      exec (.drw x y n) s = .fault (.memOutOfRange (max s.i.toNat 4096)))

/-- The same sprite drawn twice at the same place gives the first framebuffer back, and the second draw reports a
collision exactly when the first turned some pixel on (R134, whose sentence speaks of the pixels the sprite set). -/
def Obligations.DrwTwiceRestoresFramebuffer : Prop :=
  ∀ (x y : RegIx) (n : Nibble) (s t u : State), exec (.drw x y n) s = .next t →
    t.getV x = s.getV x → t.getV y = s.getV y → exec (.drw x y n) t = .next u →
      (∀ px py, pixel u.fb px py = pixel s.fb px py) ∧
        (u.getV VF = 1 ↔ ∃ px py, pixel s.fb px py = false ∧ pixel t.fb px py = true)

/-! ### Control flow and the stack -/

/-- SYS NNN: the unimplemented path with the word 0NNN and no other effect (R116). -/
def Obligations.SysTakesUnimplementedPath : Prop :=
  ∀ (nnn : Addr) (s : State), ∃ t, exec (.sys nnn) s = .next t ∧ t.status = .unimplemented (encode (.sys nnn)) ∧
    FrameOf {} s t

/-- RET (R150): the popped address goes to PC and its entry keeps its value; on an empty stack the run ends with PC and
SP as they are. -/
def Obligations.RetPopsOrEndsRun : Prop :=
  ∀ s : State,
    (s.sp = 0 → ∃ t, exec .ret s = .next t ∧ t.status = .fatalStackUnderflow ∧
      t.run = .ended .stackUnderflow ∧ FrameOf { run := true } s t) ∧
    ∀ a, s.sp ≠ 0 → s.stack[s.sp - 1]? = some a →
      ∃ t, exec .ret s = .next t ∧ t.status = .ok ∧ t.pc = a ∧ t.sp + 1 = s.sp ∧ t.stack = s.stack ∧
        FrameOf { pc := true, stack := true } s t

/-- CALL (R153): PC is pushed and NNN jumped to; on a full stack nothing is pushed, PC goes back by 2 and the stall is
reported; a CALL that stalls once stalls on every later step, with nothing but the status output written. -/
def Obligations.CallPushesOrStalls : Prop :=
  ∀ (nnn : Addr) (s : State),
    (s.sp < s.cfg.stackDepth → s.stack.length = s.cfg.stackDepth →
      ∃ t, exec (.call nnn) s = .next t ∧ t.status = .ok ∧ t.pc.toNat = nnn.toNat ∧ t.sp = s.sp + 1 ∧
        t.stack[s.sp]? = some s.pc ∧ (∀ k, k ≠ s.sp → t.stack[k]? = s.stack[k]?) ∧
        FrameOf { pc := true, stack := true } s t) ∧
    (s.sp = s.cfg.stackDepth →
      ∃ t, exec (.call nnn) s = .next t ∧ t.status = .stackOverflowStall ∧ t.pc = s.pc - 2 ∧
        FrameOf { pc := true } s t) ∧
    ∀ n : Nat, s.AtInstr (.call nnn) → s.sp = s.cfg.stackDepth →
      runSteps (n + 1) s = .next { s with status := .stackOverflowStall }

/-- Push and pop are last-in first-out: pushing a1..an then popping n times yields an..a1, and leaves SP as it was;
n pushes succeed exactly while they fit (R29, R30). -/
def Obligations.PushPopIsLifo : Prop :=
  ∀ (as : List Word) (s : State), s.Inv →
    ((pushAll as s).isSome = true ↔ s.sp + as.length ≤ s.cfg.stackDepth) ∧
      ∀ t, pushAll as s = some t → ∃ u, popMany as.length t = some (as.reverse, u) ∧ u.sp = s.sp

/-- JP NNN and JP V0, NNN (R151, R158): the target is NNN, and NNN + V0 not masked to 12 bits. -/
def Obligations.JumpsSetPc : Prop :=
  ∀ (nnn : Addr) (s : State),
    (∃ t, exec (.jp nnn) s = .next t ∧ t.status = .ok ∧ t.pc.toNat = nnn.toNat ∧ FrameOf { pc := true } s t) ∧
      ∃ t, exec (.jpV0 nnn) s = .next t ∧ t.status = .ok ∧ t.pc.toNat = nnn.toNat + (s.getV V0).toNat ∧
        FrameOf { pc := true } s t

/-- A jump to itself spins: every later step leaves the whole state as it is, with status Ok (R152). -/
def Obligations.JumpToSelfSpins : Prop :=
  ∀ (n : Nat) (s : State) (nnn : Addr), s.AtInstr (.jp nnn) → s.pc.toNat = nnn.toNat →
    runSteps (n + 1) s = .next { s with status := .ok }

/-- SE Vx, KK and SNE Vx, KK (R154, R155). -/
def Obligations.SkipsOnImmediate : Prop :=
  ∀ (x : RegIx) (kk : Byte) (s : State),
    (∃ t, exec (.seImm x kk) s = .next t ∧ t.status = .ok ∧
      t.pc = (if s.getV x = kk then s.pc + 2 else s.pc) ∧ FrameOf { pc := true } s t) ∧
    ∃ t, exec (.sneImm x kk) s = .next t ∧ t.status = .ok ∧
      t.pc = (if s.getV x = kk then s.pc else s.pc + 2) ∧ FrameOf { pc := true } s t

/-- SE Vx, Vy and SNE Vx, Vy, for every N (R156, R157); with X = Y the first always and the second never skips. -/
def Obligations.SkipsOnRegister : Prop :=
  ∀ (x y : RegIx) (n : Nibble) (s : State),
    (∃ t, exec (.seReg x y n) s = .next t ∧ t.status = .ok ∧
      t.pc = (if s.getV x = s.getV y then s.pc + 2 else s.pc) ∧ FrameOf { pc := true } s t) ∧
    ∃ t, exec (.sneReg x y n) s = .next t ∧ t.status = .ok ∧
      t.pc = (if s.getV x = s.getV y then s.pc else s.pc + 2) ∧ FrameOf { pc := true } s t

/-! ### ALU and logic -/

/-- LD Vx, KK and LD Vx, Vy (R181, R183). -/
def Obligations.RegisterLoads : Prop :=
  ∀ (x y : RegIx) (kk : Byte) (s : State),
    (∃ t, exec (.ldImm x kk) s = .next t ∧ t.status = .ok ∧ t.getV x = kk ∧ FrameOf { regs := [x] } s t) ∧
      ∃ t, exec (.ldReg x y) s = .next t ∧ t.status = .ok ∧ t.getV x = s.getV y ∧ FrameOf { regs := [x] } s t

/-- ADD Vx, KK: modulo 256 and no flag (R182). -/
def Obligations.AddImmediateWraps : Prop :=
  ∀ (x : RegIx) (kk : Byte) (s : State),
    ∃ t, exec (.addImm x kk) s = .next t ∧ t.status = .ok ∧
      (t.getV x).toNat = ((s.getV x).toNat + kk.toNat) % 256 ∧ FrameOf { regs := [x] } s t

/-- Adding n and then 256 - n mod 256 restores every register: true modulo-256 wraparound (R180). -/
def Obligations.AddImmediateIsInvertible : Prop :=
  ∀ (x : RegIx) (n : Byte) (s : State),
    ∃ t u, exec (.addImm x n) s = .next t ∧ exec (.addImm x (BitVec.ofNat 8 ((256 - n.toNat) % 256))) t = .next u ∧
      ∀ r, u.getV r = s.getV r

/-- OR, AND and XOR, bit by bit, with VF 0 afterwards for every X and Y (R184, R185, R186). -/
def Obligations.LogicOpsClearVf : Prop :=
  ∀ (x y : RegIx) (s : State),
    (∃ t, exec (.orReg x y) s = .next t ∧ t.status = .ok ∧ t.getV VF = 0 ∧
      (x ≠ VF → ∀ k, (t.getV x).getLsbD k = ((s.getV x).getLsbD k || (s.getV y).getLsbD k)) ∧
      FrameOf { regs := [x, VF] } s t) ∧
    (∃ t, exec (.andReg x y) s = .next t ∧ t.status = .ok ∧ t.getV VF = 0 ∧
      (x ≠ VF → ∀ k, (t.getV x).getLsbD k = ((s.getV x).getLsbD k && (s.getV y).getLsbD k)) ∧
      FrameOf { regs := [x, VF] } s t) ∧
    ∃ t, exec (.xorReg x y) s = .next t ∧ t.status = .ok ∧ t.getV VF = 0 ∧
      (x ≠ VF → ∀ k, (t.getV x).getLsbD k = ((s.getV x).getLsbD k != (s.getV y).getLsbD k)) ∧
      FrameOf { regs := [x, VF] } s t

/-- ADD Vx, Vy: the sum modulo 256 and the carry, in the order of ALU_FLAG_ORDER (R187, R190). -/
def Obligations.AddSetsSumAndCarry : Prop :=
  ∀ (x y : RegIx) (s : State),
    ∃ t, exec (.addReg x y) s = .next t ∧ t.status = .ok ∧
      ResultAndFlag s t x (((s.getV x).toNat + (s.getV y).toNat) % 256)
        (if (s.getV x).toNat + (s.getV y).toNat > 255 then 1 else 0) ∧
      FrameOf { regs := [x, VF] } s t

/-- SUB and SUBN: the difference modulo 256 and the strict comparison, in the order of ALU_FLAG_ORDER (R188, R189,
R190). -/
def Obligations.SubtractsSetStrictFlag : Prop :=
  ∀ (x y : RegIx) (s : State),
    (∃ t, exec (.subReg x y) s = .next t ∧ t.status = .ok ∧
      ResultAndFlag s t x ((256 + (s.getV x).toNat - (s.getV y).toNat) % 256)
        (if (s.getV y).toNat < (s.getV x).toNat then 1 else 0) ∧
      FrameOf { regs := [x, VF] } s t) ∧
    ∃ t, exec (.subnReg x y) s = .next t ∧ t.status = .ok ∧
      ResultAndFlag s t x ((256 + (s.getV y).toNat - (s.getV x).toNat) % 256)
        (if (s.getV x).toNat < (s.getV y).toNat then 1 else 0) ∧
      FrameOf { regs := [x, VF] } s t

/-- SHR and SHL: always from Vy, with the bit shifted out in VF, written last (R191, R192). -/
def Obligations.ShiftsSourceVy : Prop :=
  ∀ (x y : RegIx) (s : State),
    (∃ t, exec (.shrReg x y) s = .next t ∧ t.status = .ok ∧
      (x ≠ VF → (t.getV x).toNat = (s.getV y).toNat / 2) ∧ (t.getV VF).toNat = (s.getV y).toNat % 2 ∧
      FrameOf { regs := [x, VF] } s t) ∧
    ∃ t, exec (.shlReg x y) s = .next t ∧ t.status = .ok ∧
      (x ≠ VF → (t.getV x).toNat = (s.getV y).toNat * 2 % 256) ∧ (t.getV VF).toNat = (s.getV y).toNat / 128 ∧
      FrameOf { regs := [x, VF] } s t

/-- RND Vx, KK: the draw, a free value, AND KK, and one draw taken (R193; the counter of draws is the model's, log entry
2). It holds whatever the draw is. -/
def Obligations.RandomIsMaskedDraw : Prop :=
  ∀ (x : RegIx) (kk : Byte) (s : State),
    ∃ t, exec (.rnd x kk) s = .next t ∧ t.status = .ok ∧
      (∀ k, (t.getV x).getLsbD k = ((Config.randByte s.draws).getLsbD k && kk.getLsbD k)) ∧
      t.draws = s.draws + 1 ∧ FrameOf { regs := [x], draws := true } s t

/-! ### Index register and memory -/

/-- LD I, NNN; ADD I, Vx; LD F, Vx (R220, R221, R222): modulo 2^16, no flag, no fault, Vx not masked. -/
def Obligations.IndexLoads : Prop :=
  ∀ (nnn : Addr) (x : RegIx) (s : State),
    (∃ t, exec (.ldI nnn) s = .next t ∧ t.status = .ok ∧ t.i.toNat = nnn.toNat ∧ FrameOf { i := true } s t) ∧
    (∃ t, exec (.addI x) s = .next t ∧ t.status = .ok ∧ t.i.toNat = (s.i.toNat + (s.getV x).toNat) % 65536 ∧
      FrameOf { i := true } s t) ∧
    ∃ t, exec (.ldF x) s = .next t ∧ t.status = .ok ∧
      t.i.toNat = (s.cfg.fontBase + 5 * (s.getV x).toNat) % 65536 ∧ FrameOf { i := true } s t

/-- LD B, Vx (R223): the three digits at I, I+1, I+2, I unchanged; out of range it faults and writes nothing. -/
def Obligations.BcdStoresDigits : Prop :=
  ∀ (x : RegIx) (s : State),
    (Memory.wf s.cfg.fontBase s.mem = true → s.i.toNat + 2 < 4096 →
      ∃ t, exec (.ldB x) s = .next t ∧ t.status = .ok ∧
        (t.readByte s.i.toNat).toNat = (s.getV x).toNat / 100 ∧
        (t.readByte (s.i.toNat + 1)).toNat = (s.getV x).toNat / 10 % 10 ∧
        (t.readByte (s.i.toNat + 2)).toNat = (s.getV x).toNat % 10 ∧
        FrameOf { mem := [s.i.toNat, s.i.toNat + 1, s.i.toNat + 2] } s t) ∧
    (4096 ≤ s.i.toNat + 2 → exec (.ldB x) s = .fault (.memOutOfRange (max s.i.toNat 4096)))

/-- LD [I], Vx (R224): V0..VX at I..I+X, and I past them; out of range it faults and writes nothing. -/
def Obligations.StoreWritesLeadingRegisters : Prop :=
  ∀ (x : RegIx) (s : State),
    (Memory.wf s.cfg.fontBase s.mem = true → s.i.toNat + x.val < 4096 →
      ∃ t, exec (.storeRegs x) s = .next t ∧ t.status = .ok ∧
        (∀ k : RegIx, k ≤ x → t.readByte (s.i.toNat + k.val) = s.getV k) ∧
        t.i.toNat = (s.i.toNat + x.val + 1) % 65536 ∧
        FrameOf { i := true, mem := (List.range (x.val + 1)).map (s.i.toNat + ·) } s t) ∧
    (4096 ≤ s.i.toNat + x.val → exec (.storeRegs x) s = .fault (.memOutOfRange (max s.i.toNat 4096)))

/-- LD Vx, [I] (R225): V0..VX from I..I+X, and I past them; out of range it faults and loads nothing. -/
def Obligations.LoadReadsLeadingRegisters : Prop :=
  ∀ (x : RegIx) (s : State),
    (s.i.toNat + x.val < 4096 →
      ∃ t, exec (.loadRegs x) s = .next t ∧ t.status = .ok ∧
        (∀ k : RegIx, k ≤ x → t.getV k = s.readByte (s.i.toNat + k.val)) ∧
        t.i.toNat = (s.i.toNat + x.val + 1) % 65536 ∧
        FrameOf { i := true, regs := (List.finRange 16).filter fun k => decide (k ≤ x) } s t) ∧
    (4096 ≤ s.i.toNat + x.val → exec (.loadRegs x) s = .fault (.memOutOfRange (max s.i.toNat 4096)))

/-- Store V0..Vx, change any registers, set I back, load: V0..Vx are the stored values again (R224, R225, C5). -/
def Obligations.StoreThenLoadRestores : Prop :=
  ∀ (x : RegIx) (s t : State) (regs : Vector Byte 16), Memory.wf s.cfg.fontBase s.mem = true →
    exec (.storeRegs x) s = .next t →
      ∃ u, exec (.loadRegs x) { t with v := regs, i := s.i } = .next u ∧
        ∀ k : RegIx, k ≤ x → u.getV k = s.getV k

/-- A store into code is seen by the next fetch with nothing in between (R65, R331): after FX55 (V0..VX from I on) or
FX33 (the three digits from I on) each of the two bytes fetched is the byte stored at its address, if one was, and else
the byte that lay there before. So a store over both bytes of the next instruction, over either one or over none is
covered. -/
def Obligations.StoredCodeIsFetched : Prop :=
  ∀ (x : RegIx) (s t : State), Memory.wf s.cfg.fontBase s.mem = true → s.pc.toNat + 1 < 4096 →
    (exec (.storeRegs x) s = .next t →
      fetch t = .ok (overlaid s s.i.toNat (s.v.toList.take (x.val + 1)) s.pc.toNat ++
        overlaid s s.i.toNat (s.v.toList.take (x.val + 1)) (s.pc.toNat + 1))) ∧
    (exec (.ldB x) s = .next t →
      fetch t = .ok (overlaid s s.i.toNat (bcdDigits (s.getV x)) s.pc.toNat ++
        overlaid s s.i.toNat (bcdDigits (s.getV x)) (s.pc.toNat + 1)))

/-- A canonical memory is determined by its bytes: equal memories are equal data (R50, R59). -/
def Obligations.CanonicalMemoryIsUnique : Prop :=
  ∀ (fontBase : Nat) (m₁ m₂ : List Host.Cell), Memory.wf fontBase m₁ = true → Memory.wf fontBase m₂ = true →
    (∀ a, Memory.read fontBase m₁ a = Memory.read fontBase m₂ a) → m₁ = m₂

/-! ### Timers and keys -/

/-- SKP and SKNP (R250, R251, R252): the flag of key Vx decides; Vx > 15 is the fault. -/
def Obligations.KeySkipsOrFaults : Prop :=
  ∀ (x : RegIx) (s : State),
    (∀ k : Fin 16, (s.getV x).toNat = k.val →
      (∃ t, exec (.skp x) s = .next t ∧ t.status = .ok ∧
        t.pc = (if s.keys.get k then s.pc + 2 else s.pc) ∧ FrameOf { pc := true } s t) ∧
      ∃ t, exec (.sknp x) s = .next t ∧ t.status = .ok ∧
        t.pc = (if s.keys.get k then s.pc else s.pc + 2) ∧ FrameOf { pc := true } s t) ∧
    (15 < (s.getV x).toNat → exec (.skp x) s = .fault (.keyIndexOutOfRange (s.getV x)) ∧
      exec (.sknp x) s = .fault (.keyIndexOutOfRange (s.getV x)))

/-- LD Vx, DT; LD DT, Vx; LD ST, Vx (R253, R257, R258). -/
def Obligations.TimerMoves : Prop :=
  ∀ (x : RegIx) (s : State),
    (∃ t, exec (.ldVxDt x) s = .next t ∧ t.status = .ok ∧ t.getV x = s.dt ∧ FrameOf { regs := [x] } s t) ∧
    (∃ t, exec (.ldDtVx x) s = .next t ∧ t.status = .ok ∧ t.dt = s.getV x ∧ FrameOf { dt := true } s t) ∧
    ∃ t, exec (.ldStVx x) s = .next t ∧ t.status = .ok ∧ t.st = s.getV x ∧ FrameOf { st := true } s t

/-- LD Vx, K (R255, the table of R265): no key, PC goes back; a key, Vx gets the lowest, and PC goes back exactly when
the re-check sample S2 of R254 has a key; under FreshSample S2 is a draw and one draw is taken, under SameSample none is,
and with no key pressed none is either (log entries 2 and 16). It holds for every free sample. -/
def Obligations.WaitForKeyTable : Prop :=
  ∀ (x : RegIx) (s : State),
    ((∀ k, s.keys.get k = false) →
      ∃ t, exec (.ldVxK x) s = .next t ∧ t.status = .ok ∧ t.pc = s.pc - 2 ∧ FrameOf { pc := true } s t) ∧
    ∀ (k : Fin 16) (s2 : KeyState), s.keys.get k = true → (∀ j, j < k → s.keys.get j = false) →
      (s.cfg.keyRecheck = .sameSample ∧ s2 = s.keys ∨
        s.cfg.keyRecheck = .freshSample ∧ s2 = Config.recheckKeys s.draws) →
      ∃ t, exec (.ldVxK x) s = .next t ∧ t.status = .ok ∧ (t.getV x).toNat = k.val ∧
        ((∃ j, s2.get j = true) → t.pc = s.pc - 2) ∧ ((∀ j, s2.get j = false) → t.pc = s.pc) ∧
        (s.cfg.keyRecheck = .freshSample → t.draws = s.draws + 1) ∧
        (s.cfg.keyRecheck = .sameSample → t.draws = s.draws) ∧
        FrameOf { regs := [x], pc := true, draws := true } s t

/-- Under SameSample FX0A never completes: however many steps the host asks for, PC stays at it, and no register but Vx
changes (R256 item 1, R265). -/
def Obligations.SameSampleWaitNeverCompletes : Prop :=
  ∀ (n : Nat) (s t : State) (x : RegIx), s.cfg.keyRecheck = .sameSample → s.AtInstr (.ldVxK x) →
    runSteps n s = .next t → t.pc = s.pc ∧ ∀ r, r ≠ x → t.getV r = s.getV r

/-- The tick (R262): both timers count down and clamp at zero, ST only under SOUND_TIMER_TICKS; nothing else changes. -/
def Obligations.TickCountsDown : Prop :=
  ∀ s : State, (tick s).dt.toNat = s.dt.toNat - 1 ∧
    (tick s).st.toNat = (if s.cfg.soundTimerTicks then s.st.toNat - 1 else s.st.toNat) ∧
    (tick s).status = s.status ∧ FrameOf { dt := true, st := true } s (tick s)

/-- A delay timer loaded with n is at zero after n ticks, and not before (R262, R263). -/
def Obligations.DelayTimerReachesZero : Prop :=
  ∀ (n : Nat) (s : State), ((tick^[n]) s).dt.toNat = s.dt.toNat - n

/-! ### Reset and load -/

/-- Initialization (R320): the value of every piece of state, memory byte by byte, under every admitted configuration;
and the `init` port, raised again in any state, gives those values again (the model's own count of draws apart, log entry
5). -/
def Obligations.InitializationValues : Prop :=
  (∀ s : State, FrameOf { draws := true } (State.init s.cfg) (hostInit s) ∧ (hostInit s).status = .ok) ∧
  ∀ c : Config, c.valid = true →
    (∀ r, (State.init c).getV r = 0) ∧ (State.init c).i = 0 ∧ (State.init c).pc = 0x200 ∧
    (State.init c).stack.length = c.stackDepth ∧ (∀ a ∈ (State.init c).stack, a = 0) ∧ (State.init c).sp = 0 ∧
    (State.init c).dt = 0 ∧ (State.init c).st = 0 ∧ (∀ k, (State.init c).keys.get k = false) ∧
    (∀ x y, pixel (State.init c).fb x y = false) ∧
    (∀ k : Fin 80, (State.init c).readByte (c.fontBase + k.val) = (fontTable[k.val]?).getD 0) ∧
    (∀ a, a < c.fontBase ∨ c.fontBase + 80 ≤ a → (State.init c).readByte a = 0) ∧
    (State.init c).run = .running ∧ (State.init c).status = .ok

/-- The font table (R322): after initialization the bytes of glyph d lie at FONT_BASE + 5d, as the table gives them. -/
def Obligations.FontGlyphsInMemory : Prop :=
  ∀ c : Config,
    (State.init c).readBytes c.fontBase 80 =
      ([0xF0, 0x90, 0x90, 0x90, 0xF0, 0x20, 0x60, 0x20, 0x20, 0x70] ++
       [0xF0, 0x10, 0xF0, 0x80, 0xF0, 0xF0, 0x10, 0xF0, 0x10, 0xF0] ++
       [0x90, 0x90, 0xF0, 0x10, 0x10, 0xF0, 0x80, 0xF0, 0x10, 0xF0] ++
       [0xF0, 0x80, 0xF0, 0x90, 0xF0, 0xF0, 0x10, 0x20, 0x40, 0x40] ++
       [0xF0, 0x90, 0xF0, 0x90, 0xF0, 0xF0, 0x90, 0xF0, 0x10, 0xF0] ++
       [0xF0, 0x90, 0xF0, 0x90, 0x90, 0xE0, 0x90, 0xE0, 0x90, 0xE0] ++
       [0xF0, 0x80, 0x80, 0x80, 0xF0, 0xE0, 0x90, 0x90, 0x90, 0xE0] ++
       [0xF0, 0x80, 0xF0, 0x80, 0xF0, 0xF0, 0x80, 0xF0, 0x80, 0x80])

/-- The ROM load (R323): a ROM of at most 3584 bytes is copied verbatim from 0x200 and nothing else changes; a longer one
is rejected with no byte copied. -/
def Obligations.RomLoadCopiesOrRejects : Prop :=
  ∀ (bytes : List Byte) (s : State), Memory.wf s.cfg.fontBase s.mem = true →
    (bytes.length ≤ 3584 →
      (romLoad bytes s).status = .ok ∧
        (∀ (k : Nat) (hk : k < bytes.length), (romLoad bytes s).readByte (0x200 + k) = bytes[k]) ∧
        FrameOf { mem := (List.range bytes.length).map (0x200 + ·) } s (romLoad bytes s)) ∧
    (3584 < bytes.length → romLoad bytes s = { s with status := .romTooLarge bytes.length })

/-- The word placed for a step is the word that step fetches (log entry 13, R57). The status output is left as it is.
Where PC can be fetched from, nothing but the two bytes there and the run state changes; where it cannot, PC is put at
0x200 and nothing but PC, the two bytes there and the run state changes. -/
def Obligations.PlacedWordIsFetched : Prop :=
  ∀ (w : Nat) (s : State), Memory.wf s.cfg.fontBase s.mem = true →
    fetch (s.withFetchWord 16 w) = .ok (BitVec.ofNat 16 w) ∧ (s.withFetchWord 16 w).run = .running ∧
      (s.withFetchWord 16 w).status = s.status ∧
      (s.pc.toNat + 1 < 4096 →
        FrameOf { mem := [s.pc.toNat, s.pc.toNat + 1], run := true } s (s.withFetchWord 16 w)) ∧
      (4096 ≤ s.pc.toNat + 1 → (s.withFetchWord 16 w).pc = 0x200 ∧
        FrameOf { pc := true, mem := [0x200, 0x201], run := true } s (s.withFetchWord 16 w))
end

