-- ==== Sys2Proof/Laws/State.lean ====
section
/-! SUPPORT. One lemma per field per update of State, each true by rfl, so that no later proof unfolds a record update;
the derived updates rewrite to these; and reading a register or a byte of memory through an update. -/

namespace Sys2Proof.Machine

variable (s : State)

/-! ### setV -/

@[simp] theorem State.setV_cfg (r : RegIx) (b : Byte) : (s.setV r b).cfg = s.cfg := rfl
@[simp] theorem State.setV_v (r : RegIx) (b : Byte) : (s.setV r b).v = s.v.set r b := rfl
@[simp] theorem State.setV_i (r : RegIx) (b : Byte) : (s.setV r b).i = s.i := rfl
@[simp] theorem State.setV_pc (r : RegIx) (b : Byte) : (s.setV r b).pc = s.pc := rfl
@[simp] theorem State.setV_stack (r : RegIx) (b : Byte) : (s.setV r b).stack = s.stack := rfl
@[simp] theorem State.setV_sp (r : RegIx) (b : Byte) : (s.setV r b).sp = s.sp := rfl
@[simp] theorem State.setV_dt (r : RegIx) (b : Byte) : (s.setV r b).dt = s.dt := rfl
@[simp] theorem State.setV_st (r : RegIx) (b : Byte) : (s.setV r b).st = s.st := rfl
@[simp] theorem State.setV_keys (r : RegIx) (b : Byte) : (s.setV r b).keys = s.keys := rfl
@[simp] theorem State.setV_fb (r : RegIx) (b : Byte) : (s.setV r b).fb = s.fb := rfl
@[simp] theorem State.setV_mem (r : RegIx) (b : Byte) : (s.setV r b).mem = s.mem := rfl
@[simp] theorem State.setV_run (r : RegIx) (b : Byte) : (s.setV r b).run = s.run := rfl
@[simp] theorem State.setV_status (r : RegIx) (b : Byte) : (s.setV r b).status = s.status := rfl
@[simp] theorem State.setV_draws (r : RegIx) (b : Byte) : (s.setV r b).draws = s.draws := rfl
@[simp] theorem State.readByte_setV (r : RegIx) (b : Byte) (p : Nat) : (s.setV r b).readByte p = s.readByte p := rfl

/-! ### setRegs -/

@[simp] theorem State.setRegs_cfg (w : Vector Byte 16) : (s.setRegs w).cfg = s.cfg := rfl
@[simp] theorem State.setRegs_v (w : Vector Byte 16) : (s.setRegs w).v = w := rfl
@[simp] theorem State.setRegs_i (w : Vector Byte 16) : (s.setRegs w).i = s.i := rfl
@[simp] theorem State.setRegs_pc (w : Vector Byte 16) : (s.setRegs w).pc = s.pc := rfl
@[simp] theorem State.setRegs_stack (w : Vector Byte 16) : (s.setRegs w).stack = s.stack := rfl
@[simp] theorem State.setRegs_sp (w : Vector Byte 16) : (s.setRegs w).sp = s.sp := rfl
@[simp] theorem State.setRegs_dt (w : Vector Byte 16) : (s.setRegs w).dt = s.dt := rfl
@[simp] theorem State.setRegs_st (w : Vector Byte 16) : (s.setRegs w).st = s.st := rfl
@[simp] theorem State.setRegs_keys (w : Vector Byte 16) : (s.setRegs w).keys = s.keys := rfl
@[simp] theorem State.setRegs_fb (w : Vector Byte 16) : (s.setRegs w).fb = s.fb := rfl
@[simp] theorem State.setRegs_mem (w : Vector Byte 16) : (s.setRegs w).mem = s.mem := rfl
@[simp] theorem State.setRegs_run (w : Vector Byte 16) : (s.setRegs w).run = s.run := rfl
@[simp] theorem State.setRegs_status (w : Vector Byte 16) : (s.setRegs w).status = s.status := rfl
@[simp] theorem State.setRegs_draws (w : Vector Byte 16) : (s.setRegs w).draws = s.draws := rfl
@[simp] theorem State.readByte_setRegs (w : Vector Byte 16) (p : Nat) : (s.setRegs w).readByte p = s.readByte p := rfl

/-! ### setI -/

@[simp] theorem State.setI_cfg (a : Word) : (s.setI a).cfg = s.cfg := rfl
@[simp] theorem State.setI_v (a : Word) : (s.setI a).v = s.v := rfl
@[simp] theorem State.setI_i (a : Word) : (s.setI a).i = a := rfl
@[simp] theorem State.setI_pc (a : Word) : (s.setI a).pc = s.pc := rfl
@[simp] theorem State.setI_stack (a : Word) : (s.setI a).stack = s.stack := rfl
@[simp] theorem State.setI_sp (a : Word) : (s.setI a).sp = s.sp := rfl
@[simp] theorem State.setI_dt (a : Word) : (s.setI a).dt = s.dt := rfl
@[simp] theorem State.setI_st (a : Word) : (s.setI a).st = s.st := rfl
@[simp] theorem State.setI_keys (a : Word) : (s.setI a).keys = s.keys := rfl
@[simp] theorem State.setI_fb (a : Word) : (s.setI a).fb = s.fb := rfl
@[simp] theorem State.setI_mem (a : Word) : (s.setI a).mem = s.mem := rfl
@[simp] theorem State.setI_run (a : Word) : (s.setI a).run = s.run := rfl
@[simp] theorem State.setI_status (a : Word) : (s.setI a).status = s.status := rfl
@[simp] theorem State.setI_draws (a : Word) : (s.setI a).draws = s.draws := rfl
@[simp] theorem State.getV_setI (a : Word) (q : RegIx) : (s.setI a).getV q = s.getV q := rfl
@[simp] theorem State.readByte_setI (a : Word) (p : Nat) : (s.setI a).readByte p = s.readByte p := rfl

/-! ### setPc -/

@[simp] theorem State.setPc_cfg (a : Word) : (s.setPc a).cfg = s.cfg := rfl
@[simp] theorem State.setPc_v (a : Word) : (s.setPc a).v = s.v := rfl
@[simp] theorem State.setPc_i (a : Word) : (s.setPc a).i = s.i := rfl
@[simp] theorem State.setPc_pc (a : Word) : (s.setPc a).pc = a := rfl
@[simp] theorem State.setPc_stack (a : Word) : (s.setPc a).stack = s.stack := rfl
@[simp] theorem State.setPc_sp (a : Word) : (s.setPc a).sp = s.sp := rfl
@[simp] theorem State.setPc_dt (a : Word) : (s.setPc a).dt = s.dt := rfl
@[simp] theorem State.setPc_st (a : Word) : (s.setPc a).st = s.st := rfl
@[simp] theorem State.setPc_keys (a : Word) : (s.setPc a).keys = s.keys := rfl
@[simp] theorem State.setPc_fb (a : Word) : (s.setPc a).fb = s.fb := rfl
@[simp] theorem State.setPc_mem (a : Word) : (s.setPc a).mem = s.mem := rfl
@[simp] theorem State.setPc_run (a : Word) : (s.setPc a).run = s.run := rfl
@[simp] theorem State.setPc_status (a : Word) : (s.setPc a).status = s.status := rfl
@[simp] theorem State.setPc_draws (a : Word) : (s.setPc a).draws = s.draws := rfl
@[simp] theorem State.getV_setPc (a : Word) (q : RegIx) : (s.setPc a).getV q = s.getV q := rfl
@[simp] theorem State.readByte_setPc (a : Word) (p : Nat) : (s.setPc a).readByte p = s.readByte p := rfl

/-! ### setDt -/

@[simp] theorem State.setDt_cfg (b : Byte) : (s.setDt b).cfg = s.cfg := rfl
@[simp] theorem State.setDt_v (b : Byte) : (s.setDt b).v = s.v := rfl
@[simp] theorem State.setDt_i (b : Byte) : (s.setDt b).i = s.i := rfl
@[simp] theorem State.setDt_pc (b : Byte) : (s.setDt b).pc = s.pc := rfl
@[simp] theorem State.setDt_stack (b : Byte) : (s.setDt b).stack = s.stack := rfl
@[simp] theorem State.setDt_sp (b : Byte) : (s.setDt b).sp = s.sp := rfl
@[simp] theorem State.setDt_dt (b : Byte) : (s.setDt b).dt = b := rfl
@[simp] theorem State.setDt_st (b : Byte) : (s.setDt b).st = s.st := rfl
@[simp] theorem State.setDt_keys (b : Byte) : (s.setDt b).keys = s.keys := rfl
@[simp] theorem State.setDt_fb (b : Byte) : (s.setDt b).fb = s.fb := rfl
@[simp] theorem State.setDt_mem (b : Byte) : (s.setDt b).mem = s.mem := rfl
@[simp] theorem State.setDt_run (b : Byte) : (s.setDt b).run = s.run := rfl
@[simp] theorem State.setDt_status (b : Byte) : (s.setDt b).status = s.status := rfl
@[simp] theorem State.setDt_draws (b : Byte) : (s.setDt b).draws = s.draws := rfl
@[simp] theorem State.getV_setDt (b : Byte) (q : RegIx) : (s.setDt b).getV q = s.getV q := rfl
@[simp] theorem State.readByte_setDt (b : Byte) (p : Nat) : (s.setDt b).readByte p = s.readByte p := rfl

/-! ### setSt -/

@[simp] theorem State.setSt_cfg (b : Byte) : (s.setSt b).cfg = s.cfg := rfl
@[simp] theorem State.setSt_v (b : Byte) : (s.setSt b).v = s.v := rfl
@[simp] theorem State.setSt_i (b : Byte) : (s.setSt b).i = s.i := rfl
@[simp] theorem State.setSt_pc (b : Byte) : (s.setSt b).pc = s.pc := rfl
@[simp] theorem State.setSt_stack (b : Byte) : (s.setSt b).stack = s.stack := rfl
@[simp] theorem State.setSt_sp (b : Byte) : (s.setSt b).sp = s.sp := rfl
@[simp] theorem State.setSt_dt (b : Byte) : (s.setSt b).dt = s.dt := rfl
@[simp] theorem State.setSt_st (b : Byte) : (s.setSt b).st = b := rfl
@[simp] theorem State.setSt_keys (b : Byte) : (s.setSt b).keys = s.keys := rfl
@[simp] theorem State.setSt_fb (b : Byte) : (s.setSt b).fb = s.fb := rfl
@[simp] theorem State.setSt_mem (b : Byte) : (s.setSt b).mem = s.mem := rfl
@[simp] theorem State.setSt_run (b : Byte) : (s.setSt b).run = s.run := rfl
@[simp] theorem State.setSt_status (b : Byte) : (s.setSt b).status = s.status := rfl
@[simp] theorem State.setSt_draws (b : Byte) : (s.setSt b).draws = s.draws := rfl
@[simp] theorem State.getV_setSt (b : Byte) (q : RegIx) : (s.setSt b).getV q = s.getV q := rfl
@[simp] theorem State.readByte_setSt (b : Byte) (p : Nat) : (s.setSt b).readByte p = s.readByte p := rfl

/-! ### setFb -/

@[simp] theorem State.setFb_cfg (g : Framebuffer) : (s.setFb g).cfg = s.cfg := rfl
@[simp] theorem State.setFb_v (g : Framebuffer) : (s.setFb g).v = s.v := rfl
@[simp] theorem State.setFb_i (g : Framebuffer) : (s.setFb g).i = s.i := rfl
@[simp] theorem State.setFb_pc (g : Framebuffer) : (s.setFb g).pc = s.pc := rfl
@[simp] theorem State.setFb_stack (g : Framebuffer) : (s.setFb g).stack = s.stack := rfl
@[simp] theorem State.setFb_sp (g : Framebuffer) : (s.setFb g).sp = s.sp := rfl
@[simp] theorem State.setFb_dt (g : Framebuffer) : (s.setFb g).dt = s.dt := rfl
@[simp] theorem State.setFb_st (g : Framebuffer) : (s.setFb g).st = s.st := rfl
@[simp] theorem State.setFb_keys (g : Framebuffer) : (s.setFb g).keys = s.keys := rfl
@[simp] theorem State.setFb_fb (g : Framebuffer) : (s.setFb g).fb = g := rfl
@[simp] theorem State.setFb_mem (g : Framebuffer) : (s.setFb g).mem = s.mem := rfl
@[simp] theorem State.setFb_run (g : Framebuffer) : (s.setFb g).run = s.run := rfl
@[simp] theorem State.setFb_status (g : Framebuffer) : (s.setFb g).status = s.status := rfl
@[simp] theorem State.setFb_draws (g : Framebuffer) : (s.setFb g).draws = s.draws := rfl
@[simp] theorem State.getV_setFb (g : Framebuffer) (q : RegIx) : (s.setFb g).getV q = s.getV q := rfl
@[simp] theorem State.readByte_setFb (g : Framebuffer) (p : Nat) : (s.setFb g).readByte p = s.readByte p := rfl

/-! ### setKeys -/

@[simp] theorem State.setKeys_cfg (k : KeyState) : (s.setKeys k).cfg = s.cfg := rfl
@[simp] theorem State.setKeys_v (k : KeyState) : (s.setKeys k).v = s.v := rfl
@[simp] theorem State.setKeys_i (k : KeyState) : (s.setKeys k).i = s.i := rfl
@[simp] theorem State.setKeys_pc (k : KeyState) : (s.setKeys k).pc = s.pc := rfl
@[simp] theorem State.setKeys_stack (k : KeyState) : (s.setKeys k).stack = s.stack := rfl
@[simp] theorem State.setKeys_sp (k : KeyState) : (s.setKeys k).sp = s.sp := rfl
@[simp] theorem State.setKeys_dt (k : KeyState) : (s.setKeys k).dt = s.dt := rfl
@[simp] theorem State.setKeys_st (k : KeyState) : (s.setKeys k).st = s.st := rfl
@[simp] theorem State.setKeys_keys (k : KeyState) : (s.setKeys k).keys = k := rfl
@[simp] theorem State.setKeys_fb (k : KeyState) : (s.setKeys k).fb = s.fb := rfl
@[simp] theorem State.setKeys_mem (k : KeyState) : (s.setKeys k).mem = s.mem := rfl
@[simp] theorem State.setKeys_run (k : KeyState) : (s.setKeys k).run = s.run := rfl
@[simp] theorem State.setKeys_status (k : KeyState) : (s.setKeys k).status = s.status := rfl
@[simp] theorem State.setKeys_draws (k : KeyState) : (s.setKeys k).draws = s.draws := rfl
@[simp] theorem State.getV_setKeys (k : KeyState) (q : RegIx) : (s.setKeys k).getV q = s.getV q := rfl
@[simp] theorem State.readByte_setKeys (k : KeyState) (p : Nat) : (s.setKeys k).readByte p = s.readByte p := rfl

/-! ### setRun -/

@[simp] theorem State.setRun_cfg (r : RunState) : (s.setRun r).cfg = s.cfg := rfl
@[simp] theorem State.setRun_v (r : RunState) : (s.setRun r).v = s.v := rfl
@[simp] theorem State.setRun_i (r : RunState) : (s.setRun r).i = s.i := rfl
@[simp] theorem State.setRun_pc (r : RunState) : (s.setRun r).pc = s.pc := rfl
@[simp] theorem State.setRun_stack (r : RunState) : (s.setRun r).stack = s.stack := rfl
@[simp] theorem State.setRun_sp (r : RunState) : (s.setRun r).sp = s.sp := rfl
@[simp] theorem State.setRun_dt (r : RunState) : (s.setRun r).dt = s.dt := rfl
@[simp] theorem State.setRun_st (r : RunState) : (s.setRun r).st = s.st := rfl
@[simp] theorem State.setRun_keys (r : RunState) : (s.setRun r).keys = s.keys := rfl
@[simp] theorem State.setRun_fb (r : RunState) : (s.setRun r).fb = s.fb := rfl
@[simp] theorem State.setRun_mem (r : RunState) : (s.setRun r).mem = s.mem := rfl
@[simp] theorem State.setRun_run (r : RunState) : (s.setRun r).run = r := rfl
@[simp] theorem State.setRun_status (r : RunState) : (s.setRun r).status = s.status := rfl
@[simp] theorem State.setRun_draws (r : RunState) : (s.setRun r).draws = s.draws := rfl
@[simp] theorem State.getV_setRun (r : RunState) (q : RegIx) : (s.setRun r).getV q = s.getV q := rfl
@[simp] theorem State.readByte_setRun (r : RunState) (p : Nat) : (s.setRun r).readByte p = s.readByte p := rfl

/-! ### setStatus -/

@[simp] theorem State.setStatus_cfg (c : Status) : (s.setStatus c).cfg = s.cfg := rfl
@[simp] theorem State.setStatus_v (c : Status) : (s.setStatus c).v = s.v := rfl
@[simp] theorem State.setStatus_i (c : Status) : (s.setStatus c).i = s.i := rfl
@[simp] theorem State.setStatus_pc (c : Status) : (s.setStatus c).pc = s.pc := rfl
@[simp] theorem State.setStatus_stack (c : Status) : (s.setStatus c).stack = s.stack := rfl
@[simp] theorem State.setStatus_sp (c : Status) : (s.setStatus c).sp = s.sp := rfl
@[simp] theorem State.setStatus_dt (c : Status) : (s.setStatus c).dt = s.dt := rfl
@[simp] theorem State.setStatus_st (c : Status) : (s.setStatus c).st = s.st := rfl
@[simp] theorem State.setStatus_keys (c : Status) : (s.setStatus c).keys = s.keys := rfl
@[simp] theorem State.setStatus_fb (c : Status) : (s.setStatus c).fb = s.fb := rfl
@[simp] theorem State.setStatus_mem (c : Status) : (s.setStatus c).mem = s.mem := rfl
@[simp] theorem State.setStatus_run (c : Status) : (s.setStatus c).run = s.run := rfl
@[simp] theorem State.setStatus_status (c : Status) : (s.setStatus c).status = c := rfl
@[simp] theorem State.setStatus_draws (c : Status) : (s.setStatus c).draws = s.draws := rfl
@[simp] theorem State.getV_setStatus (c : Status) (q : RegIx) : (s.setStatus c).getV q = s.getV q := rfl
@[simp] theorem State.readByte_setStatus (c : Status) (p : Nat) : (s.setStatus c).readByte p = s.readByte p := rfl

/-! ### countDraw -/

@[simp] theorem State.countDraw_cfg : (s.countDraw).cfg = s.cfg := rfl
@[simp] theorem State.countDraw_v : (s.countDraw).v = s.v := rfl
@[simp] theorem State.countDraw_i : (s.countDraw).i = s.i := rfl
@[simp] theorem State.countDraw_pc : (s.countDraw).pc = s.pc := rfl
@[simp] theorem State.countDraw_stack : (s.countDraw).stack = s.stack := rfl
@[simp] theorem State.countDraw_sp : (s.countDraw).sp = s.sp := rfl
@[simp] theorem State.countDraw_dt : (s.countDraw).dt = s.dt := rfl
@[simp] theorem State.countDraw_st : (s.countDraw).st = s.st := rfl
@[simp] theorem State.countDraw_keys : (s.countDraw).keys = s.keys := rfl
@[simp] theorem State.countDraw_fb : (s.countDraw).fb = s.fb := rfl
@[simp] theorem State.countDraw_mem : (s.countDraw).mem = s.mem := rfl
@[simp] theorem State.countDraw_run : (s.countDraw).run = s.run := rfl
@[simp] theorem State.countDraw_status : (s.countDraw).status = s.status := rfl
@[simp] theorem State.countDraw_draws : (s.countDraw).draws = s.draws + 1 := rfl
@[simp] theorem State.getV_countDraw (q : RegIx) : (s.countDraw).getV q = s.getV q := rfl
@[simp] theorem State.readByte_countDraw (p : Nat) : (s.countDraw).readByte p = s.readByte p := rfl

/-! ### writeByte -/

@[simp] theorem State.writeByte_cfg (a : Nat) (b : Byte) : (s.writeByte a b).cfg = s.cfg := rfl
@[simp] theorem State.writeByte_v (a : Nat) (b : Byte) : (s.writeByte a b).v = s.v := rfl
@[simp] theorem State.writeByte_i (a : Nat) (b : Byte) : (s.writeByte a b).i = s.i := rfl
@[simp] theorem State.writeByte_pc (a : Nat) (b : Byte) : (s.writeByte a b).pc = s.pc := rfl
@[simp] theorem State.writeByte_stack (a : Nat) (b : Byte) : (s.writeByte a b).stack = s.stack := rfl
@[simp] theorem State.writeByte_sp (a : Nat) (b : Byte) : (s.writeByte a b).sp = s.sp := rfl
@[simp] theorem State.writeByte_dt (a : Nat) (b : Byte) : (s.writeByte a b).dt = s.dt := rfl
@[simp] theorem State.writeByte_st (a : Nat) (b : Byte) : (s.writeByte a b).st = s.st := rfl
@[simp] theorem State.writeByte_keys (a : Nat) (b : Byte) : (s.writeByte a b).keys = s.keys := rfl
@[simp] theorem State.writeByte_fb (a : Nat) (b : Byte) : (s.writeByte a b).fb = s.fb := rfl
@[simp] theorem State.writeByte_mem (a : Nat) (b : Byte) : (s.writeByte a b).mem = Memory.write s.cfg.fontBase s.mem a b := rfl
@[simp] theorem State.writeByte_run (a : Nat) (b : Byte) : (s.writeByte a b).run = s.run := rfl
@[simp] theorem State.writeByte_status (a : Nat) (b : Byte) : (s.writeByte a b).status = s.status := rfl
@[simp] theorem State.writeByte_draws (a : Nat) (b : Byte) : (s.writeByte a b).draws = s.draws := rfl
@[simp] theorem State.getV_writeByte (a : Nat) (b : Byte) (q : RegIx) : (s.writeByte a b).getV q = s.getV q := rfl

/-! ### Registers through a register write -/

/-- What one register write does to every register. -/
theorem State.getV_setV (r q : RegIx) (b : Byte) : (s.setV r b).getV q = if r = q then b else s.getV q := by
  simp only [State.getV, State.setV, Vector.get_eq_getElem, Vector.getElem_set, Fin.val_inj]

@[simp] theorem State.getV_setV_same (r : RegIx) (b : Byte) : (s.setV r b).getV r = b := by
  simp [State.getV_setV]

theorem State.getV_setV_ne {r q : RegIx} (h : r ≠ q) (b : Byte) : (s.setV r b).getV q = s.getV q := by
  simp [State.getV_setV, h]

/-! ### The derived updates, in terms of the plain ones -/

@[simp] theorem State.rollBack_eq : s.rollBack = s.setPc (s.pc - 2) := rfl
@[simp] theorem State.setFlag_eq (f : Bool) : s.setFlag f = s.setV VF (flagByte f) := rfl
@[simp] theorem State.endRun_eq (r : EndReason) (c : Status) :
    s.endRun r c = (s.setRun (.ended r)).setStatus c := rfl
@[simp] theorem advance_eq : advance s = s.setPc (s.pc + 2) := rfl
@[simp] theorem takeFault_eq (f : Fault) :
    takeFault f s = (s.setRun (.ended (.fault f))).setStatus (.fault f) := rfl
@[simp] theorem reportUnimplemented_eq (w : Word) : reportUnimplemented w s = s.setStatus (.unimplemented w) := rfl
@[simp] theorem reportNotRunning_eq : reportNotRunning s = s.setStatus .notRunning := rfl
@[simp] theorem State.writeResultThenFlag_eq (x : RegIx) (r : Byte) (f : Bool) :
    s.writeResultThenFlag x r f = (s.setV x r).setV VF (flagByte f) := rfl

end Sys2Proof.Machine
end

