-- ==== Sys2Proof/Laws/Memory.lean ====
section
/-! SUPPORT. Memory: a read after a write, the canonical form kept by every operation, and runs of bytes. -/

namespace Sys2Proof.Machine

/-! ### One byte -/

theorem Memory.wfFrom_cons {fontBase lo k : Nat} {v : Byte} {m : List Host.Cell} :
    Memory.wfFrom fontBase lo ((k, v) :: m) = true ↔
      lo ≤ k ∧ k < memSize ∧ v ≠ unlistedByte fontBase k ∧ Memory.wfFrom fontBase (k + 1) m = true := by
  simp [Memory.wfFrom, and_assoc]

theorem Memory.wfFrom_mono {fontBase lo lo' : Nat} {m : List Host.Cell} (h : lo' ≤ lo)
    (hm : Memory.wfFrom fontBase lo m = true) : Memory.wfFrom fontBase lo' m = true := by
  cases m with
  | nil => rfl
  | cons c m =>
    obtain ⟨k, v⟩ := c
    rw [Memory.wfFrom_cons] at hm ⊢
    exact ⟨h.trans hm.1, hm.2⟩

/-- Below its first possible address a canonical memory reads as its reset content. -/
theorem Memory.read_below {fontBase : Nat} (m : List Host.Cell) {lo a : Nat} (h : a < lo)
    (hm : Memory.wfFrom fontBase lo m = true) : Memory.read fontBase m a = unlistedByte fontBase a := by
  induction m generalizing lo with
  | nil => rfl
  | cons c m ih =>
    obtain ⟨k, v⟩ := c
    rw [Memory.wfFrom_cons] at hm
    have hk : a < k + 1 := by omega
    rw [Memory.read, if_neg (by omega)]
    exact ih hk hm.2.2.2

theorem Memory.read_put_same {fontBase : Nat} {rest : List Host.Cell} {a : Nat} (b : Byte)
    (h : Memory.read fontBase rest a = unlistedByte fontBase a) :
    Memory.read fontBase (Memory.put fontBase a b rest) a = b := by
  unfold Memory.put
  split
  · simp_all
  · simp [Memory.read]

theorem Memory.read_put_ne {fontBase : Nat} {rest : List Host.Cell} {a p : Nat} (b : Byte) (h : p ≠ a) :
    Memory.read fontBase (Memory.put fontBase a b rest) p = Memory.read fontBase rest p := by
  unfold Memory.put
  split
  · rfl
  · simp [Memory.read, h]

/-- A read after a write to the same address gives the byte written (R59). -/
theorem Memory.read_write_same {fontBase : Nat} (m : List Host.Cell) {lo : Nat} (a : Nat) (b : Byte)
    (hm : Memory.wfFrom fontBase lo m = true) :
    Memory.read fontBase (Memory.write fontBase m a b) a = b := by
  induction m generalizing lo with
  | nil => exact Memory.read_put_same b rfl
  | cons c m ih =>
    obtain ⟨k, v⟩ := c
    have hc := Memory.wfFrom_cons.mp hm
    unfold Memory.write
    split
    · exact Memory.read_put_same b (Memory.read_below (lo := k) _ (by assumption)
        (Memory.wfFrom_cons.mpr ⟨le_refl k, hc.2⟩))
    · split
      · exact Memory.read_put_same b (Memory.read_below m (by omega) hc.2.2.2)
      · rw [Memory.read, if_neg (by assumption)]
        exact ih hc.2.2.2

/-- A write leaves every other address alone (R59). -/
theorem Memory.read_write_ne {fontBase : Nat} (m : List Host.Cell) {a p : Nat} (b : Byte) (h : p ≠ a) :
    Memory.read fontBase (Memory.write fontBase m a b) p = Memory.read fontBase m p := by
  induction m with
  | nil => exact Memory.read_put_ne b h
  | cons c m ih =>
    obtain ⟨k, v⟩ := c
    unfold Memory.write
    split
    · exact Memory.read_put_ne b h
    · split
      · rw [Memory.read_put_ne b h, Memory.read, if_neg (by omega)]
      · simp only [Memory.read, ih]

theorem Memory.put_wf {fontBase lo a : Nat} {b : Byte} {rest : List Host.Cell} (h : lo ≤ a) (ha : a < memSize)
    (hr : Memory.wfFrom fontBase (a + 1) rest = true) :
    Memory.wfFrom fontBase lo (Memory.put fontBase a b rest) = true := by
  unfold Memory.put
  split
  · exact Memory.wfFrom_mono (by omega) hr
  · exact Memory.wfFrom_cons.mpr ⟨h, ha, by assumption, hr⟩

theorem Memory.write_wfFrom {fontBase : Nat} (m : List Host.Cell) {lo a : Nat} (b : Byte) (h : lo ≤ a)
    (ha : a < memSize) (hm : Memory.wfFrom fontBase lo m = true) :
    Memory.wfFrom fontBase lo (Memory.write fontBase m a b) = true := by
  induction m generalizing lo with
  | nil => exact Memory.put_wf h ha rfl
  | cons c m ih =>
    obtain ⟨k, v⟩ := c
    have hc := Memory.wfFrom_cons.mp hm
    unfold Memory.write
    split
    · exact Memory.put_wf h ha (Memory.wfFrom_cons.mpr ⟨by omega, hc.2⟩)
    · split
      · rename_i _ hak
        exact Memory.put_wf h ha (by rw [hak]; exact hc.2.2.2)
      · exact Memory.wfFrom_cons.mpr ⟨hc.1, hc.2.1, hc.2.2.1, ih (by omega) hc.2.2.2⟩

/-- Every write inside the address space keeps the canonical form. -/
theorem Memory.write_wf {fontBase : Nat} {m : List Host.Cell} {a : Nat} (b : Byte) (ha : a < memSize)
    (hm : Memory.wf fontBase m = true) : Memory.wf fontBase (Memory.write fontBase m a b) = true :=
  Memory.write_wfFrom m b (Nat.zero_le a) ha hm

/-- The canonical form of the memory after reset. -/
theorem Memory.wf_nil (fontBase : Nat) : Memory.wf fontBase [] = true := rfl

/-! ### The state's bytes -/

theorem State.readByte_writeByte_same (s : State) (a : Nat) (b : Byte)
    (h : Memory.wf s.cfg.fontBase s.mem = true) : (s.writeByte a b).readByte a = b :=
  Memory.read_write_same s.mem a b h

theorem State.readByte_writeByte_ne (s : State) {a p : Nat} (b : Byte) (h : p ≠ a) :
    (s.writeByte a b).readByte p = s.readByte p :=
  Memory.read_write_ne s.mem b h

theorem State.length_readBytes (s : State) (base n : Nat) : (s.readBytes base n).length = n := by
  induction n generalizing base with
  | zero => rfl
  | succ n ih => simp [State.readBytes, ih]

theorem State.getElem?_readBytes (s : State) (base n k : Nat) (h : k < n) :
    (s.readBytes base n)[k]? = some (s.readByte (base + k)) := by
  induction n generalizing base k with
  | zero => omega
  | succ n ih =>
    cases k with
    | zero => simp [State.readBytes]
    | succ k =>
      rw [State.readBytes, List.getElem?_cons_succ, ih (base + 1) k (by omega)]
      congr 2
      omega

/-- What a run of writes changes: memory only. -/
theorem State.writeBytes_eq (s : State) (base : Nat) (bs : List Byte) :
    s.writeBytes base bs = { s with mem := (s.writeBytes base bs).mem } := by
  induction bs generalizing s base with
  | nil => rfl
  | cons b bs ih =>
    rw [State.writeBytes, ih]
    rfl

section Fields
variable (s : State) (base : Nat) (bs : List Byte)

@[simp] theorem State.writeBytes_cfg : (s.writeBytes base bs).cfg = s.cfg := by rw [State.writeBytes_eq]
@[simp] theorem State.writeBytes_v : (s.writeBytes base bs).v = s.v := by rw [State.writeBytes_eq]
@[simp] theorem State.writeBytes_i : (s.writeBytes base bs).i = s.i := by rw [State.writeBytes_eq]
@[simp] theorem State.writeBytes_pc : (s.writeBytes base bs).pc = s.pc := by rw [State.writeBytes_eq]
@[simp] theorem State.writeBytes_stack : (s.writeBytes base bs).stack = s.stack := by rw [State.writeBytes_eq]
@[simp] theorem State.writeBytes_sp : (s.writeBytes base bs).sp = s.sp := by rw [State.writeBytes_eq]
@[simp] theorem State.writeBytes_dt : (s.writeBytes base bs).dt = s.dt := by rw [State.writeBytes_eq]
@[simp] theorem State.writeBytes_st : (s.writeBytes base bs).st = s.st := by rw [State.writeBytes_eq]
@[simp] theorem State.writeBytes_keys : (s.writeBytes base bs).keys = s.keys := by rw [State.writeBytes_eq]
@[simp] theorem State.writeBytes_fb : (s.writeBytes base bs).fb = s.fb := by rw [State.writeBytes_eq]
@[simp] theorem State.writeBytes_run : (s.writeBytes base bs).run = s.run := by rw [State.writeBytes_eq]
@[simp] theorem State.writeBytes_status : (s.writeBytes base bs).status = s.status := by rw [State.writeBytes_eq]
@[simp] theorem State.writeBytes_draws : (s.writeBytes base bs).draws = s.draws := by rw [State.writeBytes_eq]
@[simp] theorem State.getV_writeBytes (r : RegIx) : (s.writeBytes base bs).getV r = s.getV r := by
  rw [State.writeBytes_eq]; rfl

end Fields

/-- A run of writes leaves every byte outside it alone. -/
theorem State.readByte_writeBytes_outside (s : State) (base : Nat) (bs : List Byte) {p : Nat}
    (h : p < base ∨ base + bs.length ≤ p) : (s.writeBytes base bs).readByte p = s.readByte p := by
  induction bs generalizing s base with
  | nil => rfl
  | cons b bs ih =>
    rw [List.length_cons] at h
    rw [State.writeBytes, ih _ _ (by omega), State.readByte_writeByte_ne s b (by omega)]

theorem State.writeBytes_wf (s : State) (base : Nat) (bs : List Byte) (hb : base + bs.length ≤ memSize)
    (h : Memory.wf s.cfg.fontBase s.mem = true) :
    Memory.wf s.cfg.fontBase (s.writeBytes base bs).mem = true := by
  induction bs generalizing s base with
  | nil => exact h
  | cons b bs ih =>
    rw [List.length_cons] at hb
    exact ih (s.writeByte base b) (base + 1) (by omega) (Memory.write_wf b (by omega) h)

/-- A run of writes leaves its own bytes (R59). -/
theorem State.readByte_writeBytes_inside (s : State) (base : Nat) (bs : List Byte) (k : Nat) (hk : k < bs.length)
    (hb : base + bs.length ≤ memSize) (h : Memory.wf s.cfg.fontBase s.mem = true) :
    (s.writeBytes base bs).readByte (base + k) = bs[k] := by
  induction bs generalizing s base k with
  | nil => simp at hk
  | cons b bs ih =>
    rw [List.length_cons] at hb
    cases k with
    | zero =>
      rw [State.writeBytes, State.readByte_writeBytes_outside _ _ _ (by omega), Nat.add_zero,
        State.readByte_writeByte_same s base b h]
      rfl
    | succ k =>
      rw [State.writeBytes, show base + (k + 1) = base + 1 + k by omega,
        ih (s.writeByte base b) (base + 1) k (by simpa using hk) (by omega) (Memory.write_wf b (by omega) h)]
      rfl

/-- Every byte after a run of writes: the byte written there, else the byte that was there (R59). -/
theorem State.readByte_writeBytes (s : State) (base : Nat) (bs : List Byte) (p : Nat)
    (hb : base + bs.length ≤ memSize) (h : Memory.wf s.cfg.fontBase s.mem = true) :
    (s.writeBytes base bs).readByte p =
      if base ≤ p then (bs[p - base]?).getD (s.readByte p) else s.readByte p := by
  by_cases hp : base ≤ p
  · obtain ⟨k, rfl⟩ := Nat.exists_eq_add_of_le hp
    rw [if_pos hp, Nat.add_sub_cancel_left]
    by_cases hk : k < bs.length
    · rw [State.readByte_writeBytes_inside s base bs k hk hb h, List.getElem?_eq_getElem hk]; rfl
    · rw [State.readByte_writeBytes_outside s base bs (by omega), List.getElem?_eq_none (by omega)]; rfl
  · rw [if_neg hp, State.readByte_writeBytes_outside s base bs (by omega)]

end Sys2Proof.Machine
end

