-- ==== Sys2Proof/Laws/Ops.lean ====
section
/-! SUPPORT. What each shared operation can do, said once: the checked range, the stack, how an instruction ends, the
flag writes, runs of registers, the keys, and the whole step. -/

namespace Sys2Proof.Machine

/-! ### Addresses -/

theorem addrWord_toNat (nnn : Addr) : (addrWord nnn).toNat = nnn.toNat := by
  rw [addrWord, BitVec.toNat_setWidth]
  exact Nat.mod_eq_of_lt (by omega)

/-- The word `0NNN` is NNN zero-extended (R82, R116). -/
theorem addrWord_eq_layout (nnn : Addr) : addrWord nnn = layoutNNN 0 nnn := by
  apply BitVec.eq_of_toNat_eq
  have h : ((0x0#4 : BitVec 4) ++ nnn : BitVec (4 + 12)).toNat = nnn.toNat := by
    rw [BitVec.toNat_append]
    simp
  rw [addrWord_toNat]
  exact h.symm

/-! ### The checked range -/

theorem firstOutOfRange_none {base n : Nat} : firstOutOfRange base n = none ↔ n = 0 ∨ base + n ≤ memSize := by
  unfold firstOutOfRange
  split <;> simp_all

theorem checked_in {base n : Nat} (k : Result) (h : n = 0 ∨ base + n ≤ memSize) : checked base n k = k := by
  simp [checked, firstOutOfRange, h]

theorem checked_out {base n : Nat} (k : Result) (h : n ≠ 0) (hb : memSize < base + n) :
    checked base n k = .fault (.memOutOfRange (max base memSize)) := by
  rw [checked, firstOutOfRange, if_neg (by omega)]

/-- A checked range answers the fault of its lowest bad address, or what it guards. -/
theorem checked_cases (base n : Nat) (k : Result) :
    (n ≠ 0 ∧ memSize < base + n ∧ checked base n k = .fault (.memOutOfRange (max base memSize))) ∨
      ((n = 0 ∨ base + n ≤ memSize) ∧ checked base n k = k) := by
  by_cases h : n = 0 ∨ base + n ≤ memSize
  · exact .inr ⟨h, checked_in k h⟩
  · exact .inl ⟨by omega, by omega, checked_out k (by omega) (by omega)⟩

/-- A checked range answers a next state exactly when it lies in the address space and what it guards does. -/
theorem checked_next {base n : Nat} {k : Result} {t : State} :
    checked base n k = .next t ↔ (n = 0 ∨ base + n ≤ memSize) ∧ k = .next t := by
  rcases checked_cases base n k with ⟨h1, h2, h⟩ | ⟨h1, h⟩
  · rw [h]
    simp only [reduceCtorEq, false_iff, not_and_or]
    exact .inl (by omega)
  · rw [h]
    exact ⟨fun hk => ⟨h1, hk⟩, And.right⟩

/-! ### The stack -/

/-- Push is Overflow at the full stack, else it stores at `stack[SP]` and counts (R29). -/
theorem State.push_cases (s : State) (a : Word) :
    (s.sp = s.cfg.stackDepth ∧ s.push a = none) ∨
      (s.sp ≠ s.cfg.stackDepth ∧ s.push a = some { s with stack := s.stack.set s.sp a, sp := s.sp + 1 }) := by
  by_cases h : s.sp = s.cfg.stackDepth <;> simp [State.push, h]

/-- Pop is Underflow at the empty stack, else it answers `stack[SP - 1]` and counts down (R30). -/
theorem State.pop_cases (s : State) :
    (s.sp = 0 ∧ s.pop = none) ∨
      (s.sp ≠ 0 ∧ s.pop = some ((s.stack[s.sp - 1]?).getD 0, { s with sp := s.sp - 1 })) := by
  by_cases h : s.sp = 0 <;> simp [State.pop, h]

/-! ### How an instruction ends -/

theorem complete_next {s t : State} : complete s = .next t ↔ t = s.setStatus .ok := by
  simp [complete, eq_comm]

/-- `settle` never answers a fault, and a refusal only where it was given one. -/
theorem settle_cases (s : State) (r : Result) :
    (∃ t, r = .next t ∧ settle s r = .next t) ∨ (∃ f, r = .fault f ∧ settle s r = .next (takeFault f s)) ∨
      (∃ e, r = .refused e ∧ settle s r = .refused e) := by
  cases r with
  | next t => exact .inl ⟨t, rfl, rfl⟩
  | fault f => exact .inr (.inl ⟨f, rfl, rfl⟩)
  | refused e => exact .inr (.inr ⟨e, rfl, rfl⟩)

/-- A skip changes PC alone. -/
theorem State.skipIf_eq (s : State) (c : Bool) : s.skipIf c = s.setPc (if c then s.pc + 2 else s.pc) := by
  cases c <;> rfl

/-! ### The flag writes -/

/-- A result and its flag: what every register holds afterwards (R190). -/
theorem State.getV_writeResultAndFlag (s : State) (x q : RegIx) (r : Byte) (f : Bool) :
    (s.writeResultAndFlag x r f).getV q =
      match s.cfg.aluFlagOrder with
      | .flagThenResult => if x = q then r else if VF = q then flagByte f else s.getV q
      | .resultThenFlag => if VF = q then flagByte f else if x = q then r else s.getV q := by
  unfold State.writeResultAndFlag
  cases s.cfg.aluFlagOrder <;> simp [State.getV_setV]

/-- A result and its flag write registers only. -/
theorem State.writeResultAndFlag_eq (s : State) (x : RegIx) (r : Byte) (f : Bool) :
    s.writeResultAndFlag x r f = s.setRegs (s.writeResultAndFlag x r f).v := by
  unfold State.writeResultAndFlag
  split <;> rfl

theorem flagByte_toNat (f : Bool) : (flagByte f).toNat = if f then 1 else 0 := by
  cases f <;> rfl

/-! ### Runs of registers -/

theorem State.length_leadingRegs (s : State) (x : RegIx) : (s.leadingRegs x).length = x.val + 1 := by
  simp [State.leadingRegs, regCount]

theorem State.getElem_leadingRegs (s : State) (x : RegIx) (k : Nat) (h : k < (s.leadingRegs x).length)
    (hk : k < 16) : (s.leadingRegs x)[k] = s.getV ⟨k, hk⟩ := by
  simp [State.leadingRegs, State.getV, Vector.get_eq_getElem]

/-- Loading bytes from register `k` on: register `q` gets byte `q - k` where there is one. -/
theorem loadInto_getElem (k : Nat) (bs : List Byte) (v : Vector Byte 16) (q : Nat) (hq : q < 16) :
    (loadInto k bs v)[q] = if k ≤ q then (bs[q - k]?).getD v[q] else v[q] := by
  induction bs generalizing k v with
  | nil => simp [loadInto]
  | cons b bs ih =>
    rw [loadInto, ih, Vector.getElem_setIfInBounds]
    rcases Nat.lt_trichotomy k q with h | h | h
    · have hs : q - k = q - (k + 1) + 1 := by omega
      simp [show k + 1 ≤ q from h, show k ≤ q from h.le, show k ≠ q from h.ne, hs]
    · subst h
      simp
    · simp [show ¬k + 1 ≤ q by omega, show ¬k ≤ q by omega, show k ≠ q by omega]

/-! ### Keys -/

/-- `lowest(S)`: the smallest key pressed (R254). -/
theorem lowestKey_some {s : KeyState} {k : Nat} (h : lowestKey s = some k) :
    ∃ hk : k < 16, s[k] = true ∧ ∀ j (hj : j < 16), j < k → s[j] = false := by
  rw [lowestKey, List.findIdx?_eq_some_iff_getElem] at h
  obtain ⟨hlt, hk, hbelow⟩ := h
  have hk16 : k < 16 := by simpa using hlt
  refine ⟨hk16, by simpa using hk, fun j hj hjk => ?_⟩
  have := hbelow j hjk
  simpa using this

/-- No lowest key means no key pressed (R254). -/
theorem lowestKey_none {s : KeyState} : lowestKey s = none ↔ ∀ j (hj : j < 16), s[j] = false := by
  rw [lowestKey, List.findIdx?_eq_none_iff]
  constructor
  · intro h j hj
    have := h s[j] (by simp)
    simpa using this
  · intro h b hb
    obtain ⟨j, hj, rfl⟩ := List.getElem_of_mem hb
    have hj16 : j < 16 := by simpa using hj
    simpa using h j hj16

/-- The re-check has some key pressed iff some key is (R255). -/
theorem anyKey_iff (s : KeyState) : anyKey s = true ↔ ∃ j, ∃ hj : j < 16, s[j] = true := by
  rw [anyKey, ← not_iff_not]
  simp [lowestKey_none]

/-- The key a skip reads: its flag for an index up to 15, else the fault (R252). -/
theorem State.keyAt_cases (s : State) (v : Byte) :
    (∃ k : Fin 16, v.toNat = k.val ∧ s.keyAt v = .ok (s.keys.get k)) ∨
      (15 < v.toNat ∧ s.keyAt v = .error (.keyIndexOutOfRange v)) := by
  by_cases h : v.toNat < 16
  · exact .inl ⟨⟨v.toNat, h⟩, rfl, by simp [State.keyAt, h]⟩
  · exact .inr ⟨by omega, by simp [State.keyAt, h]⟩

/-- A key found: Vx is written, and PC goes back while the sample has a key (R255). -/
theorem keyFound_eq (s2 : KeyState) (x : RegIx) (k : Nat) (s : State) :
    keyFound s2 x k s = (s.setV x (BitVec.ofNat 8 k)).setPc (if anyKey s2 then s.pc - 2 else s.pc) := by
  unfold keyFound
  split <;> rfl

/-- Counting the re-check's draw changes the counter alone, and only under `FreshSample` (log entry 2). -/
theorem State.countRecheck_eq (s : State) :
    s.countRecheck = { s with draws := if s.cfg.keyRecheck = .freshSample then s.draws + 1 else s.draws } := by
  unfold State.countRecheck
  split <;> simp [*, State.countDraw]

section Recheck
variable (s : State)

@[simp] theorem State.countRecheck_cfg : s.countRecheck.cfg = s.cfg := by rw [State.countRecheck_eq]
@[simp] theorem State.countRecheck_v : s.countRecheck.v = s.v := by rw [State.countRecheck_eq]
@[simp] theorem State.countRecheck_i : s.countRecheck.i = s.i := by rw [State.countRecheck_eq]
@[simp] theorem State.countRecheck_pc : s.countRecheck.pc = s.pc := by rw [State.countRecheck_eq]
@[simp] theorem State.countRecheck_stack : s.countRecheck.stack = s.stack := by rw [State.countRecheck_eq]
@[simp] theorem State.countRecheck_sp : s.countRecheck.sp = s.sp := by rw [State.countRecheck_eq]
@[simp] theorem State.countRecheck_dt : s.countRecheck.dt = s.dt := by rw [State.countRecheck_eq]
@[simp] theorem State.countRecheck_st : s.countRecheck.st = s.st := by rw [State.countRecheck_eq]
@[simp] theorem State.countRecheck_keys : s.countRecheck.keys = s.keys := by rw [State.countRecheck_eq]
@[simp] theorem State.countRecheck_fb : s.countRecheck.fb = s.fb := by rw [State.countRecheck_eq]
@[simp] theorem State.countRecheck_mem : s.countRecheck.mem = s.mem := by rw [State.countRecheck_eq]
@[simp] theorem State.countRecheck_run : s.countRecheck.run = s.run := by rw [State.countRecheck_eq]
@[simp] theorem State.countRecheck_status : s.countRecheck.status = s.status := by rw [State.countRecheck_eq]
theorem State.countRecheck_draws :
    s.countRecheck.draws = if s.cfg.keyRecheck = .freshSample then s.draws + 1 else s.draws := by
  rw [State.countRecheck_eq]
@[simp] theorem State.getV_countRecheck (r : RegIx) : s.countRecheck.getV r = s.getV r := by
  rw [State.countRecheck_eq]; rfl
@[simp] theorem State.readByte_countRecheck (a : Nat) : s.countRecheck.readByte a = s.readByte a := by
  rw [State.countRecheck_eq]; rfl

end Recheck

/-! ### Pixels -/

/-- What one toggle does to every pixel. -/
theorem pixel_togglePixel (fb : Framebuffer) (x p : Fin 64) (y q : Fin 32) :
    pixel (togglePixel fb x y) p q = if x = p ∧ y = q then !pixel fb p q else pixel fb p q := by
  simp only [pixel, togglePixel, Vector.get_eq_getElem, Vector.getElem_set, Fin.val_inj]
  by_cases hx : x = p
  · subst hx
    by_cases hy : y = q
    · subst hy
      simp
    · simp [hy, Fin.val_inj]
  · simp [hx]

theorem pixel_clearFb (x : Fin 64) (y : Fin 32) : pixel clearFb x y = false := by
  simp [pixel, clearFb, Vector.get_eq_getElem]

/-! ### The step -/

/-- Everything a step can do (R119). -/
theorem step_cases (s : State) :
    (∃ r, s.run = .ended r ∧ step s = .next (reportNotRunning s)) ∨
      (s.run = .running ∧ ∃ f, fetch s = .error f ∧ step s = .next (takeFault f s)) ∨
      (s.run = .running ∧ ∃ w e, fetch s = .ok w ∧ decodeWord s.cfg.class0Match w = .error e ∧
        step s = .next (reportUnimplemented w (advance s))) ∨
      (s.run = .running ∧ ∃ w i, fetch s = .ok w ∧ decodeWord s.cfg.class0Match w = .ok i ∧
        step s = settle s (exec i (advance s))) := by
  cases hr : s.run with
  | ended r => exact .inl ⟨r, rfl, by simp only [step, hr]⟩
  | running =>
    cases hf : fetch s with
    | error f => exact .inr (.inl ⟨rfl, f, rfl, by simp only [step, hr, hf]⟩)
    | ok w =>
      cases hd : decodeWord s.cfg.class0Match w with
      | error e => exact .inr (.inr (.inl ⟨rfl, w, e, rfl, hd, by simp only [step, hr, hf, hd]⟩))
      | ok i => exact .inr (.inr (.inr ⟨rfl, w, i, rfl, hd, by simp only [step, hr, hf, hd]⟩))

end Sys2Proof.Machine
end

