-- ==== Sys2Proof/Laws/Words.lean ====
section
/-! SUPPORT. The fields of a word laid out by the encoder, and a word rebuilt from its fields. -/

namespace Sys2Proof

/-! ### Parts of a concatenation -/

theorem extract_high {a b : Nat} (hi : BitVec a) (lo : BitVec b) : (hi ++ lo).extractLsb' b a = hi := by
  rw [BitVec.extractLsb'_append_eq_of_le (Nat.le_refl b), Nat.sub_self]
  exact BitVec.extractLsb'_eq_self

theorem extract_inner {a b : Nat} (hi : BitVec a) (lo : BitVec b) (start len : Nat) (h : start + len ≤ b) :
    (hi ++ lo).extractLsb' start len = lo.extractLsb' start len :=
  BitVec.extractLsb'_append_eq_of_add_le h

theorem extract_low {a b : Nat} (hi : BitVec a) (lo : BitVec b) : (hi ++ lo).extractLsb' 0 b = lo := by
  rw [extract_inner hi lo 0 b (by omega)]
  exact BitVec.extractLsb'_eq_self

/-- A vector is its high part before its low part. -/
theorem rejoin {a b : Nat} (w : BitVec (a + b)) : w.extractLsb' b a ++ w.extractLsb' 0 b = w := by
  apply BitVec.eq_of_getLsbD_eq
  intro k hk
  rw [BitVec.getLsbD_append]
  split
  · simp [*]
  · simp only [BitVec.getLsbD_extractLsb', show k - b < a by omega, decide_true, Bool.true_and]
    congr 1
    omega

/-- A part of a part is a part. -/
theorem extract_extract {a : Nat} (w : BitVec a) (s l s' l' : Nat) (h : s' + l' ≤ l) :
    (w.extractLsb' s l).extractLsb' s' l' = w.extractLsb' (s + s') l' := by
  apply BitVec.eq_of_getLsbD_eq
  intro k hk
  simp only [BitVec.getLsbD_extractLsb', hk, show s' + k < l by omega, decide_true, Bool.true_and, Nat.add_assoc]

/-! ### The fields of each layout (R81) -/

section Fields
variable (c n : Nibble) (x y : RegIx) (kk : Byte) (nnn : Addr)

@[simp] theorem fieldC_layoutXKK : fieldC (layoutXKK c x kk) = c := extract_high c (regBits x ++ kk)

@[simp] theorem fieldX_layoutXKK : fieldX (layoutXKK c x kk) = x :=
  congrArg BitVec.toFin ((extract_inner c (regBits x ++ kk) 8 4 (by omega)).trans (extract_high (regBits x) kk))

@[simp] theorem fieldKK_layoutXKK : fieldKK (layoutXKK c x kk) = kk :=
  (extract_inner c (regBits x ++ kk) 0 8 (by omega)).trans (extract_low (regBits x) kk)

@[simp] theorem fieldC_layoutXYN : fieldC (layoutXYN c x y n) = c :=
  extract_high c (regBits x ++ (regBits y ++ n))

@[simp] theorem fieldX_layoutXYN : fieldX (layoutXYN c x y n) = x :=
  congrArg BitVec.toFin ((extract_inner c (regBits x ++ (regBits y ++ n)) 8 4 (by omega)).trans
    (extract_high (regBits x) (regBits y ++ n)))

@[simp] theorem fieldY_layoutXYN : fieldY (layoutXYN c x y n) = y :=
  congrArg BitVec.toFin (((extract_inner c (regBits x ++ (regBits y ++ n)) 4 4 (by omega)).trans
    (extract_inner (regBits x) (regBits y ++ n) 4 4 (by omega))).trans (extract_high (regBits y) n))

@[simp] theorem fieldN_layoutXYN : fieldN (layoutXYN c x y n) = n :=
  ((extract_inner c (regBits x ++ (regBits y ++ n)) 0 4 (by omega)).trans
    (extract_inner (regBits x) (regBits y ++ n) 0 4 (by omega))).trans (extract_low (regBits y) n)

@[simp] theorem fieldC_layoutNNN : fieldC (layoutNNN c nnn) = c := extract_high c nnn

@[simp] theorem fieldNNN_layoutNNN : fieldNNN (layoutNNN c nnn) = nnn := extract_low c nnn

end Fields

/-! ### A word from its fields -/

theorem layoutNNN_fields (w : Word) : layoutNNN (fieldC w) (fieldNNN w) = w := rejoin (a := 4) (b := 12) w

theorem fieldNNN_split (w : Word) : regBits (fieldX w) ++ fieldKK w = fieldNNN w := by
  have h := rejoin (a := 4) (b := 8) (fieldNNN w)
  have hx : (fieldNNN w).extractLsb' 8 4 = regBits (fieldX w) := extract_extract w 0 12 8 4 (by omega)
  have hk : (fieldNNN w).extractLsb' 0 8 = fieldKK w := extract_extract w 0 12 0 8 (by omega)
  rw [hx, hk] at h
  exact h

theorem fieldKK_split (w : Word) : regBits (fieldY w) ++ fieldN w = fieldKK w := by
  have h := rejoin (a := 4) (b := 4) (fieldKK w)
  have hy : (fieldKK w).extractLsb' 4 4 = regBits (fieldY w) := extract_extract w 0 8 4 4 (by omega)
  have hn : (fieldKK w).extractLsb' 0 4 = fieldN w := extract_extract w 0 8 0 4 (by omega)
  rw [hy, hn] at h
  exact h

theorem layoutXKK_fields (w : Word) : layoutXKK (fieldC w) (fieldX w) (fieldKK w) = w := by
  rw [layoutXKK, fieldNNN_split]
  exact layoutNNN_fields w

theorem layoutXYN_fields (w : Word) : layoutXYN (fieldC w) (fieldX w) (fieldY w) (fieldN w) = w := by
  rw [layoutXYN, fieldKK_split]
  exact layoutXKK_fields w

/-- The word of two bytes, as memory holds them (R57). -/
theorem wordBytes_join (w : Word) : w.extractLsb' 8 8 ++ w.extractLsb' 0 8 = w := rejoin (a := 8) (b := 8) w

end Sys2Proof
end

