-- ==== Sys2Proof/Laws/PerInstr.lean ====
section
/-! SUPPORT. The per-instruction family TableRow: the encoder's word of every instruction matches its row of
spec/opcode_table.json, whose mask and match are written out here a second time. -/

namespace Sys2Proof.Laws

/-- The mask of the instruction's row of spec/opcode_table.json. -/
def rowMask : Instr → Word
  | .cls => 0xFFFF
  | .ret => 0xFFFF
  | .sys _ => 0xF000
  | .jp _ => 0xF000
  | .call _ => 0xF000
  | .seImm _ _ => 0xF000
  | .sneImm _ _ => 0xF000
  | .seReg _ _ _ => 0xF000
  | .ldImm _ _ => 0xF000
  | .addImm _ _ => 0xF000
  | .ldReg _ _ => 0xF00F
  | .orReg _ _ => 0xF00F
  | .andReg _ _ => 0xF00F
  | .xorReg _ _ => 0xF00F
  | .addReg _ _ => 0xF00F
  | .subReg _ _ => 0xF00F
  | .shrReg _ _ => 0xF00F
  | .subnReg _ _ => 0xF00F
  | .shlReg _ _ => 0xF00F
  | .sneReg _ _ _ => 0xF000
  | .ldI _ => 0xF000
  | .jpV0 _ => 0xF000
  | .rnd _ _ => 0xF000
  | .drw _ _ _ => 0xF000
  | .skp _ => 0xF0FF
  | .sknp _ => 0xF0FF
  | .ldVxDt _ => 0xF0FF
  | .ldVxK _ => 0xF0FF
  | .ldDtVx _ => 0xF0FF
  | .ldStVx _ => 0xF0FF
  | .addI _ => 0xF0FF
  | .ldF _ => 0xF0FF
  | .ldB _ => 0xF0FF
  | .storeRegs _ => 0xF0FF
  | .loadRegs _ => 0xF0FF

/-- The match of the instruction's row of spec/opcode_table.json. -/
def rowMatch : Instr → Word
  | .cls => 0x00E0
  | .ret => 0x00EE
  | .sys _ => 0x0000
  | .jp _ => 0x1000
  | .call _ => 0x2000
  | .seImm _ _ => 0x3000
  | .sneImm _ _ => 0x4000
  | .seReg _ _ _ => 0x5000
  | .ldImm _ _ => 0x6000
  | .addImm _ _ => 0x7000
  | .ldReg _ _ => 0x8000
  | .orReg _ _ => 0x8001
  | .andReg _ _ => 0x8002
  | .xorReg _ _ => 0x8003
  | .addReg _ _ => 0x8004
  | .subReg _ _ => 0x8005
  | .shrReg _ _ => 0x8006
  | .subnReg _ _ => 0x8007
  | .shlReg _ _ => 0x800E
  | .sneReg _ _ _ => 0x9000
  | .ldI _ => 0xA000
  | .jpV0 _ => 0xB000
  | .rnd _ _ => 0xC000
  | .drw _ _ _ => 0xD000
  | .skp _ => 0xE09E
  | .sknp _ => 0xE0A1
  | .ldVxDt _ => 0xF007
  | .ldVxK _ => 0xF00A
  | .ldDtVx _ => 0xF015
  | .ldStVx _ => 0xF018
  | .addI _ => 0xF01E
  | .ldF _ => 0xF029
  | .ldB _ => 0xF033
  | .storeRegs _ => 0xF055
  | .loadRegs _ => 0xF065

/-- The encoded word lies in the instruction's row. -/
def TableRow.Statement (i : Instr) : Prop := encode i &&& rowMask i = rowMatch i

/-! ### Masks over the layouts -/

theorem mask_class (c : Nibble) (t : Addr) : (c ++ t : BitVec (4 + 12)) &&& (0xF#4 ++ 0x000#12) = c ++ 0x000#12 := by
  rw [BitVec.and_append]
  congr 1
  · exact BitVec.and_allOnes
  · exact BitVec.and_zero

theorem mask_layoutNNN (c : Nibble) (nnn : Addr) : layoutNNN c nnn &&& 0xF000 = layoutNNN c 0 := mask_class c nnn

theorem mask_layoutXKK (c : Nibble) (x : RegIx) (kk : Byte) : layoutXKK c x kk &&& 0xF000 = layoutXKK c 0 0 :=
  mask_class c (regBits x ++ kk)

theorem mask_layoutXYN (c : Nibble) (x y : RegIx) (n : Nibble) : layoutXYN c x y n &&& 0xF000 = layoutXYN c 0 0 0 :=
  mask_class c (regBits x ++ (regBits y ++ n))

theorem mask_layoutXKK_low (c : Nibble) (x : RegIx) (kk : Byte) : layoutXKK c x kk &&& 0xF0FF = layoutXKK c 0 kk := by
  have h : (c ++ (regBits x ++ kk) : BitVec (4 + (4 + 8))) &&& (0xF#4 ++ (0x0#4 ++ 0xFF#8)) =
      c ++ (0x0#4 ++ kk) := by
    rw [BitVec.and_append, BitVec.and_append]
    congr 1
    · exact BitVec.and_allOnes
    · congr 1
      · exact BitVec.and_zero
      · exact BitVec.and_allOnes
  exact h

theorem mask_layoutXYN_low (c : Nibble) (x y : RegIx) (n : Nibble) :
    layoutXYN c x y n &&& 0xF00F = layoutXYN c 0 0 n := by
  have h : (c ++ (regBits x ++ (regBits y ++ n)) : BitVec (4 + (4 + (4 + 4)))) &&&
      (0xF#4 ++ (0x0#4 ++ (0x0#4 ++ 0xF#4))) = c ++ (0x0#4 ++ (0x0#4 ++ n)) := by
    rw [BitVec.and_append, BitVec.and_append, BitVec.and_append]
    congr 1
    · exact BitVec.and_allOnes
    · congr 1
      · exact BitVec.and_zero
      · congr 1
        · exact BitVec.and_zero
        · exact BitVec.and_allOnes
  exact h

/-! ### One lemma per instruction -/

theorem TableRow.cls : TableRow.Statement .cls := rfl
theorem TableRow.ret : TableRow.Statement .ret := rfl
theorem TableRow.sys (nnn : Addr) :
    TableRow.Statement (.sys nnn) := mask_layoutNNN 0x0 nnn
theorem TableRow.jp (nnn : Addr) :
    TableRow.Statement (.jp nnn) := mask_layoutNNN 0x1 nnn
theorem TableRow.call (nnn : Addr) :
    TableRow.Statement (.call nnn) := mask_layoutNNN 0x2 nnn
theorem TableRow.seImm (x : RegIx) (kk : Byte) :
    TableRow.Statement (.seImm x kk) := mask_layoutXKK 0x3 x kk
theorem TableRow.sneImm (x : RegIx) (kk : Byte) :
    TableRow.Statement (.sneImm x kk) := mask_layoutXKK 0x4 x kk
theorem TableRow.seReg (x : RegIx) (y : RegIx) (n : Nibble) :
    TableRow.Statement (.seReg x y n) := mask_layoutXYN 0x5 x y n
theorem TableRow.ldImm (x : RegIx) (kk : Byte) :
    TableRow.Statement (.ldImm x kk) := mask_layoutXKK 0x6 x kk
theorem TableRow.addImm (x : RegIx) (kk : Byte) :
    TableRow.Statement (.addImm x kk) := mask_layoutXKK 0x7 x kk
theorem TableRow.ldReg (x : RegIx) (y : RegIx) :
    TableRow.Statement (.ldReg x y) := mask_layoutXYN_low 0x8 x y 0x0
theorem TableRow.orReg (x : RegIx) (y : RegIx) :
    TableRow.Statement (.orReg x y) := mask_layoutXYN_low 0x8 x y 0x1
theorem TableRow.andReg (x : RegIx) (y : RegIx) :
    TableRow.Statement (.andReg x y) := mask_layoutXYN_low 0x8 x y 0x2
theorem TableRow.xorReg (x : RegIx) (y : RegIx) :
    TableRow.Statement (.xorReg x y) := mask_layoutXYN_low 0x8 x y 0x3
theorem TableRow.addReg (x : RegIx) (y : RegIx) :
    TableRow.Statement (.addReg x y) := mask_layoutXYN_low 0x8 x y 0x4
theorem TableRow.subReg (x : RegIx) (y : RegIx) :
    TableRow.Statement (.subReg x y) := mask_layoutXYN_low 0x8 x y 0x5
theorem TableRow.shrReg (x : RegIx) (y : RegIx) :
    TableRow.Statement (.shrReg x y) := mask_layoutXYN_low 0x8 x y 0x6
theorem TableRow.subnReg (x : RegIx) (y : RegIx) :
    TableRow.Statement (.subnReg x y) := mask_layoutXYN_low 0x8 x y 0x7
theorem TableRow.shlReg (x : RegIx) (y : RegIx) :
    TableRow.Statement (.shlReg x y) := mask_layoutXYN_low 0x8 x y 0xE
theorem TableRow.sneReg (x : RegIx) (y : RegIx) (n : Nibble) :
    TableRow.Statement (.sneReg x y n) := mask_layoutXYN 0x9 x y n
theorem TableRow.ldI (nnn : Addr) :
    TableRow.Statement (.ldI nnn) := mask_layoutNNN 0xA nnn
theorem TableRow.jpV0 (nnn : Addr) :
    TableRow.Statement (.jpV0 nnn) := mask_layoutNNN 0xB nnn
theorem TableRow.rnd (x : RegIx) (kk : Byte) :
    TableRow.Statement (.rnd x kk) := mask_layoutXKK 0xC x kk
theorem TableRow.drw (x : RegIx) (y : RegIx) (n : Nibble) :
    TableRow.Statement (.drw x y n) := mask_layoutXYN 0xD x y n
theorem TableRow.skp (x : RegIx) :
    TableRow.Statement (.skp x) := mask_layoutXKK_low 0xE x 0x9E
theorem TableRow.sknp (x : RegIx) :
    TableRow.Statement (.sknp x) := mask_layoutXKK_low 0xE x 0xA1
theorem TableRow.ldVxDt (x : RegIx) :
    TableRow.Statement (.ldVxDt x) := mask_layoutXKK_low 0xF x 0x07
theorem TableRow.ldVxK (x : RegIx) :
    TableRow.Statement (.ldVxK x) := mask_layoutXKK_low 0xF x 0x0A
theorem TableRow.ldDtVx (x : RegIx) :
    TableRow.Statement (.ldDtVx x) := mask_layoutXKK_low 0xF x 0x15
theorem TableRow.ldStVx (x : RegIx) :
    TableRow.Statement (.ldStVx x) := mask_layoutXKK_low 0xF x 0x18
theorem TableRow.addI (x : RegIx) :
    TableRow.Statement (.addI x) := mask_layoutXKK_low 0xF x 0x1E
theorem TableRow.ldF (x : RegIx) :
    TableRow.Statement (.ldF x) := mask_layoutXKK_low 0xF x 0x29
theorem TableRow.ldB (x : RegIx) :
    TableRow.Statement (.ldB x) := mask_layoutXKK_low 0xF x 0x33
theorem TableRow.storeRegs (x : RegIx) :
    TableRow.Statement (.storeRegs x) := mask_layoutXKK_low 0xF x 0x55
theorem TableRow.loadRegs (x : RegIx) :
    TableRow.Statement (.loadRegs x) := mask_layoutXKK_low 0xF x 0x65

end Sys2Proof.Laws
end

