-- ==== Sys2Proof/Laws/Sprite.lean ====
section
/-! SUPPORT. What drawing a sprite does to every pixel and to the collision flag: a sprite toggles each of its spots once,
because the clip keeps two bits of a sprite off one pixel (spec/41_display.md R131-R134). -/

namespace Sys2Proof.Machine

/-- A pixel of the screen. -/
abbrev Spot := Fin 64 × Fin 32

/-- One toggle of a canvas: the collision flag first, then the pixel (R134). -/
def toggleAt (k : Canvas) (p : Spot) : Canvas :=
  { fb := togglePixel k.fb p.1 p.2, hit := k.hit || pixel k.fb p.1 p.2 }

/-- The pixels that one row of a sprite toggles. -/
def rowSpots (c : DrawClip) (vx vy row : Nat) (b : Byte) : List Spot :=
  ((List.range 8).filter fun col => spriteBit b col && visible c vx vy col row).map
    fun col => (pixelColumn vx col, pixelRow vy row)

/-- The pixels that a sprite toggles, from row `row` on. -/
def spriteSpots (c : DrawClip) (vx vy : Nat) : Nat → List Byte → List Spot
  | _, [] => []
  | row, b :: bs => rowSpots c vx vy row b ++ spriteSpots c vx vy (row + 1) bs

theorem drawRow_eq (c : DrawClip) (vx vy row : Nat) (b : Byte) (k : Canvas) :
    drawRow c vx vy row b k = (rowSpots c vx vy row b).foldl toggleAt k := by
  rw [drawRow, rowSpots, List.foldl_map, List.foldl_filter]
  rfl

theorem drawRows_eq (c : DrawClip) (vx vy row : Nat) (bs : List Byte) (k : Canvas) :
    drawRows c vx vy row bs k = (spriteSpots c vx vy row bs).foldl toggleAt k := by
  induction bs generalizing row k with
  | nil => rfl
  | cons b bs ih => rw [drawRows, ih, drawRow_eq, spriteSpots, List.foldl_append]

/-- Toggling different spots: each pixel among them flips once, and the flag says whether one of them was on. -/
theorem foldl_toggleAt (ps : List Spot) (hn : ps.Nodup) (k : Canvas) (p : Spot) :
    pixel (ps.foldl toggleAt k).fb p.1 p.2 = (pixel k.fb p.1 p.2 != decide (p ∈ ps)) ∧
      (ps.foldl toggleAt k).hit = (k.hit || ps.any fun q => pixel k.fb q.1 q.2) := by
  induction ps generalizing k with
  | nil => simp
  | cons q ps ih =>
    obtain ⟨hq, hn⟩ := List.nodup_cons.mp hn
    obtain ⟨h1, h2⟩ := ih hn (toggleAt k q)
    have hsame : ∀ r ∈ ps, pixel (toggleAt k q).fb r.1 r.2 = pixel k.fb r.1 r.2 := by
      intro r hr
      have hne : ¬(q.1 = r.1 ∧ q.2 = r.2) := fun h => hq (by rw [show q = r from Prod.ext h.1 h.2]; exact hr)
      rw [toggleAt, pixel_togglePixel, if_neg hne]
    refine ⟨?_, ?_⟩
    · rw [List.foldl_cons, h1]
      by_cases hp : q = p
      · subst hp
        simp [toggleAt, pixel_togglePixel, hq]
      · have hne : ¬(q.1 = p.1 ∧ q.2 = p.2) := fun h => hp (Prod.ext h.1 h.2)
        simp [toggleAt, pixel_togglePixel, hne, show p ≠ q from fun h => hp h.symm]
    · rw [List.foldl_cons, h2]
      have hany : (ps.any fun r => pixel (toggleAt k q).fb r.1 r.2) = ps.any fun r => pixel k.fb r.1 r.2 := by
        rw [Bool.eq_iff_iff]
        simp only [List.any_eq_true]
        exact ⟨fun ⟨r, hr, h⟩ => ⟨r, hr, by rw [← hsame r hr]; exact h⟩,
          fun ⟨r, hr, h⟩ => ⟨r, hr, by rw [hsame r hr]; exact h⟩⟩
      rw [hany]
      simp [toggleAt, Bool.or_assoc]

/-- A visible bit lies within 64 columns and 32 rows of the position the index arithmetic wraps. -/
theorem visible_bounds {c : DrawClip} {vx vy col row : Nat} (h : visible c vx vy col row = true) :
    vx % 64 + col < 64 ∧ vy % 32 + row < 32 := by
  cases c <;> simp [visible] at h <;> omega

theorem mem_rowSpots {c : DrawClip} {vx vy row : Nat} {b : Byte} {p : Spot} :
    p ∈ rowSpots c vx vy row b ↔ ∃ col, col < 8 ∧ spriteBit b col = true ∧ visible c vx vy col row = true ∧
      pixelColumn vx col = p.1 ∧ pixelRow vy row = p.2 := by
  simp only [rowSpots, List.mem_map, List.mem_filter, List.mem_range, Bool.and_eq_true]
  constructor
  · rintro ⟨col, ⟨h8, hb, hv⟩, rfl⟩
    exact ⟨col, h8, hb, hv, rfl, rfl⟩
  · rintro ⟨col, h8, hb, hv, h1, h2⟩
    exact ⟨col, ⟨h8, hb, hv⟩, Prod.ext h1 h2⟩

theorem mem_spriteSpots {c : DrawClip} {vx vy row : Nat} {bs : List Byte} {p : Spot} :
    p ∈ spriteSpots c vx vy row bs ↔ ∃ k b, bs[k]? = some b ∧ p ∈ rowSpots c vx vy (row + k) b := by
  induction bs generalizing row with
  | nil => simp [spriteSpots]
  | cons b bs ih =>
    rw [spriteSpots, List.mem_append, ih]
    constructor
    · rintro (h | ⟨k, b', hb, h⟩)
      · exact ⟨0, b, rfl, h⟩
      · exact ⟨k + 1, b', by simpa using hb, by rwa [show row + (k + 1) = row + 1 + k by omega]⟩
    · rintro ⟨k, b', hb, h⟩
      cases k with
      | zero =>
        obtain rfl : b = b' := by simpa using hb
        exact .inl h
      | succ k => exact .inr ⟨k, b', by simpa using hb, by rwa [show row + 1 + k = row + (k + 1) by omega]⟩

theorem rowSpots_nodup (c : DrawClip) (vx vy row : Nat) (b : Byte) : (rowSpots c vx vy row b).Nodup := by
  refine List.Nodup.map_on ?_ (List.nodup_range.filter _)
  intro m hm n hn h
  simp only [List.mem_filter, Bool.and_eq_true] at hm hn
  have hm' := visible_bounds hm.2.2
  have hn' := visible_bounds hn.2.2
  have := congrArg Fin.val (Prod.ext_iff.mp h).1
  simp only [pixelColumn, Fin.val_ofNat] at this
  omega

theorem spriteSpots_nodup (c : DrawClip) (vx vy row : Nat) (bs : List Byte) :
    (spriteSpots c vx vy row bs).Nodup := by
  induction bs generalizing row with
  | nil => exact List.nodup_nil
  | cons b bs ih =>
    refine List.Nodup.append (rowSpots_nodup c vx vy row b) (ih (row + 1)) ?_
    intro p hp hq
    obtain ⟨k, b', _, hk⟩ := mem_spriteSpots.mp hq
    obtain ⟨_, _, _, hv, _, hr⟩ := mem_rowSpots.mp hp
    obtain ⟨_, _, _, hv', _, hr'⟩ := mem_rowSpots.mp hk
    have h1 := visible_bounds hv
    have h2 := visible_bounds hv'
    have := congrArg Fin.val (hr.trans hr'.symm)
    simp only [pixelRow, Fin.val_ofNat] at this
    omega

/-- Drawing a sprite: every pixel among its spots flips, no other does, and the collision flag says whether a spot was
on before (R131, R134). -/
theorem drawSprite_spec (c : DrawClip) (vx vy : Nat) (bs : List Byte) (fb : Framebuffer) (x : Fin 64) (y : Fin 32) :
    pixel (drawSprite c vx vy bs fb).fb x y = (pixel fb x y != decide ((x, y) ∈ spriteSpots c vx vy 0 bs)) ∧
      (drawSprite c vx vy bs fb).hit = (spriteSpots c vx vy 0 bs).any fun q => pixel fb q.1 q.2 := by
  rw [drawSprite, drawRows_eq]
  have h := foldl_toggleAt _ (spriteSpots_nodup c vx vy 0 bs) { fb := fb, hit := false } (x, y)
  exact ⟨h.1, by simpa using h.2⟩

end Sys2Proof.Machine
end

