-- ==== Sys2Proof/Tests/Slice0.lean ====
section
/-! SUPPORT. The modeller's own tests. Expected values are those of spec/95_test_vectors.md (the vector's number stands
beside each test), of the examples of the rules, or words written out from the patterns of R85; the witnesses at the end
show a state and operands that meet the hypotheses of each obligation. -/

namespace Sys2Proof.Tests

open Sys2Proof.Machine

/-! ### Helpers -/

/-- The state after one step that runs the word `w`, placed at PC. -/
def after (w : Nat) (s : State) : Option State := nextState? (step (s.withFetchWord 16 w))

/-- What `f` reads in the state after one step that runs `w`. -/
def look {α : Type} (w : Nat) (s : State) (f : State → α) : Option α := (after w s).map f

/-- `s` with some registers set. -/
def regs (l : List (RegIx × Byte)) (s : State) : State := l.foldl (fun t p => t.setV p.1 p.2) s

/-- Exactly these keys pressed. -/
def keysOf (l : List (Fin 16)) : KeyState := l.foldl (fun k j => k.set j.val true j.isLt) (Vector.replicate 16 false)

/-- Exactly these pixels on. -/
def fbOf (l : List (Fin 64 × Fin 32)) : Framebuffer := l.foldl (fun fb p => togglePixel fb p.1 p.2) clearFb

/-- `n` pixels of row `y`, from column `x` on; a column past 63 wraps. -/
def span (fb : Framebuffer) (x n : Nat) (y : Fin 32) : List Bool :=
  (List.range n).map fun k => pixel fb (Fin.ofNat 64 (x + k)) y

/-- Reset under another configuration. -/
def under (c : Config) : State := State.init c

/-- The default configuration with CLASS0_MATCH = LowByte. -/
def lowByteCfg : Config := { defaultConfig with class0Match := .lowByte }

/-- The default configuration with ALU_FLAG_ORDER = ResultThenFlag. -/
def flagLastCfg : Config := { defaultConfig with aluFlagOrder := .resultThenFlag }

/-- The default configuration with DRAW_CLIP = WrappedStartClip. -/
def wrapCfg : Config := { defaultConfig with drawClip := .wrappedStartClip }

/-- The default configuration with KEY_RECHECK = SameSample. -/
def sameCfg : Config := { defaultConfig with keyRecheck := .sameSample }

/-- A stack with `n` entries in use. -/
def deep (n : Nat) (s : State) : State := { s with sp := n, stack := (List.range 16).map fun k => BitVec.ofNat 16 (0x100 + 2 * k) }

/-- The run has ended. -/
def endedState : State := State.reset.setRun (.ended .stackUnderflow)

/-! ### Well-formedness -/

/-- SYS NNN stands for no word that is CLS or RET: one ill-formed term for each case of the check (R87). -/
theorem test_wf_refuses :
    Instr.wellFormed .fullWord (.sys 0x0E0) = false ∧ Instr.wellFormed .fullWord (.sys 0x0EE) = false ∧
      Instr.wellFormed .lowByte (.sys 0x1E0) = false ∧ Instr.wellFormed .lowByte (.sys 0x1EE) = false := by decide

/-- The neighbours of the ill-formed terms are well-formed. -/
theorem test_wf_accepts :
    Instr.wellFormed .fullWord (.sys 0x1E0) = true ∧ Instr.wellFormed .fullWord (.sys 0x0E1) = true ∧
      Instr.wellFormed .lowByte (.sys 0x1EF) = true := by decide

/-- Each bound of R325, just missed. -/
theorem test_config_refuses :
    Config.valid { defaultConfig with stackDepth := 0 } = false ∧
      Config.valid { defaultConfig with fontBase := 0x1B1 } = false ∧
      Config.valid { defaultConfig with stepsPerFrame := 0 } = false := by decide

/-- Each bound of R325, just met. -/
theorem test_config_accepts :
    Config.valid { defaultConfig with stackDepth := 1, fontBase := 0x1B0, stepsPerFrame := 1 } = true ∧
      Config.valid { defaultConfig with fontBase := 0 } = true := by decide

/-! ### Decoding: a word written out from the pattern of each row of R85, as its two bytes in memory order -/

theorem test_decode_class0 :
    decode .fullWord [0x00, 0xE0] = .ok (.cls, []) ∧ decode .fullWord [0x00, 0xEE] = .ok (.ret, []) ∧
      decode .fullWord [0x01, 0x23] = .ok (.sys 0x123, []) ∧ decode .fullWord [0x01, 0xE0] = .ok (.sys 0x1E0, []) ∧
      decode .lowByte [0x01, 0xE0] = .ok (.cls, []) ∧ decode .lowByte [0x0A, 0xEE] = .ok (.ret, []) := by decide

theorem test_decode_control :
    decode .fullWord [0x1A, 0xBC] = .ok (.jp 0xABC, []) ∧ decode .fullWord [0x2A, 0xBC] = .ok (.call 0xABC, []) ∧
      decode .fullWord [0x3A, 0xBC] = .ok (.seImm 10 0xBC, []) ∧
      decode .fullWord [0x4A, 0xBC] = .ok (.sneImm 10 0xBC, []) ∧
      decode .fullWord [0x5A, 0xBC] = .ok (.seReg 10 11 12, []) ∧
      decode .fullWord [0x9A, 0xBC] = .ok (.sneReg 10 11 12, []) ∧
      decode .fullWord [0xBA, 0xBC] = .ok (.jpV0 0xABC, []) := by decide

theorem test_decode_alu :
    decode .fullWord [0x6A, 0xBC] = .ok (.ldImm 10 0xBC, []) ∧ decode .fullWord [0x7A, 0xBC] = .ok (.addImm 10 0xBC, []) ∧
      decode .fullWord [0x8A, 0xB0] = .ok (.ldReg 10 11, []) ∧ decode .fullWord [0x8A, 0xB1] = .ok (.orReg 10 11, []) ∧
      decode .fullWord [0x8A, 0xB2] = .ok (.andReg 10 11, []) ∧
      decode .fullWord [0x8A, 0xB3] = .ok (.xorReg 10 11, []) := by decide

theorem test_decode_alu_flags :
    decode .fullWord [0x8A, 0xB4] = .ok (.addReg 10 11, []) ∧ decode .fullWord [0x8A, 0xB5] = .ok (.subReg 10 11, []) ∧
      decode .fullWord [0x8A, 0xB6] = .ok (.shrReg 10 11, []) ∧ decode .fullWord [0x8A, 0xB7] = .ok (.subnReg 10 11, []) ∧
      decode .fullWord [0x8A, 0xBE] = .ok (.shlReg 10 11, []) ∧
      decode .fullWord [0xCA, 0xBC] = .ok (.rnd 10 0xBC, []) := by decide

theorem test_decode_memory_display :
    decode .fullWord [0xAA, 0xBC] = .ok (.ldI 0xABC, []) ∧ decode .fullWord [0xDA, 0xBC] = .ok (.drw 10 11 12, []) ∧
      decode .fullWord [0xFA, 0x1E] = .ok (.addI 10, []) ∧ decode .fullWord [0xFA, 0x29] = .ok (.ldF 10, []) ∧
      decode .fullWord [0xFA, 0x33] = .ok (.ldB 10, []) ∧ decode .fullWord [0xFA, 0x55] = .ok (.storeRegs 10, []) ∧
      decode .fullWord [0xFA, 0x65] = .ok (.loadRegs 10, []) := by decide

theorem test_decode_keys_timers :
    decode .fullWord [0xEA, 0x9E] = .ok (.skp 10, []) ∧ decode .fullWord [0xEA, 0xA1] = .ok (.sknp 10, []) ∧
      decode .fullWord [0xFA, 0x07] = .ok (.ldVxDt 10, []) ∧ decode .fullWord [0xFA, 0x0A] = .ok (.ldVxK 10, []) ∧
      decode .fullWord [0xFA, 0x15] = .ok (.ldDtVx 10, []) ∧
      decode .fullWord [0xFA, 0x18] = .ok (.ldStVx 10, []) := by decide

/-- The decoder leaves what follows alone, and refuses by name: fewer than two bytes, and the words of vectors 40-6 to
40-10. -/
theorem test_decode_refuses :
    decode .fullWord [0x00, 0xE0, 0x12] = .ok (.cls, [0x12]) ∧ decode .fullWord [0x00] = .error .tooShort ∧
      decode .fullWord [] = .error .tooShort ∧ decode .fullWord [0x8A, 0xB8] = .error (.unimplemented 0x8AB8) ∧
      decode .fullWord [0x80, 0x0F] = .error (.unimplemented 0x800F) ∧
      decode .fullWord [0xE0, 0x00] = .error (.unimplemented 0xE000) ∧
      decode .fullWord [0xF0, 0xFF] = .error (.unimplemented 0xF0FF) ∧
      decode .fullWord [0xFF, 0xFF] = .error (.unimplemented 0xFFFF) := by decide

/-- The table's numbering of bits is the word's own: `D015` is DRW V0, V1, 5. -/
theorem test_decode_table_word :
    decodeTableWord 16 0xD015 = some (.drw 0 1 5) ∧ decodeTableWord 16 0x8AB8 = none := by decide

/-! ### Dispatch (95_test_vectors.md 2.1) -/

/-- 40-1, 40-2, 40-3. -/
theorem test_sys :
    look 0x0000 State.reset (fun t => (t.status, t.pc)) = some (.unimplemented 0x0000, 0x202) ∧
      look 0x0123 State.reset (fun t => (t.status, t.pc)) = some (.unimplemented 0x0123, 0x202) ∧
      look 0x01E0 (State.reset.setFb (fbOf [(0, 0)])) (fun t => (t.status, t.fb)) =
        some (.unimplemented 0x01E0, fbOf [(0, 0)]) := by decide

/-- 40-6, 40-10. -/
theorem test_unimplemented :
    look 0x8AB8 State.reset (fun t => (t.status, t.pc)) = some (.unimplemented 0x8AB8, 0x202) ∧
      look 0xFFFF State.reset (fun t => (t.status, t.pc)) = some (.unimplemented 0xFFFF, 0x202) := by decide

/-- 40-11: the fetch fault, and the step after it. -/
theorem test_fetch_fault :
    (nextState? (step (State.reset.setPc 0xFFF))).map (fun t => (t.status, t.pc, t.run)) =
        some (.fault (.memOutOfRange 0x1000), 0xFFF, .ended (.fault (.memOutOfRange 0x1000))) ∧
      ((nextState? (step (State.reset.setPc 0xFFF))).bind fun t => nextState? (step t)).map
        (fun t => (t.status, t.pc)) = some (.notRunning, 0xFFF) := by decide

/-- 40-12, 40-13: the last word of memory, and an odd address. -/
theorem test_fetch_edges :
    look 0x6A05 (State.reset.setPc 0xFFE) (fun t => (t.getV 10, t.pc, t.status)) = some (5, 0x1000, .ok) ∧
      look 0x6A05 (State.reset.setPc 0x201) (fun t => (t.getV 10, t.pc)) = some (5, 0x203) := by decide

/-- 40-14. -/
theorem test_not_running : (nextState? (step endedState)) = some { endedState with status := .notRunning } := by decide

/-! ### Display (2.2) -/

/-- 41-15 and S11; 40-4. -/
theorem test_cls :
    look 0x00E0 (regs [(15, 7)] (State.reset.setFb (fbOf [(3, 3)]))) (fun t => (pixel t.fb 3 3, t.getV VF, t.pc)) =
        some (false, 7, 0x202) ∧
      look 0x01E0 ((under lowByteCfg).setFb (fbOf [(0, 0)])) (fun t => (t.status, pixel t.fb 0 0)) =
        some (.ok, false) := by decide

/-- 41-1, 41-3, 41-6: the font's glyph 0 (its first two rows), the clip at the right edge, and both clips. -/
theorem test_drw :
    look 0xD015 (State.reset.setI 0x50) (fun t => (span t.fb 0 5 0, span t.fb 0 5 1, t.getV VF)) =
        some ([true, true, true, true, false], [true, false, false, true, false], 0) ∧
      look 0xD011 (regs [(0, 60)] ((State.reset.setI 0x300).writeByte 0x300 0xFF)) (fun t => span t.fb 59 7 0) =
        some [false, true, true, true, true, false, false] ∧
      look 0xD011 (regs [(0, 62), (1, 33)] ((State.reset.setI 0x300).writeByte 0x300 0xFF)) (fun t => span t.fb 61 5 1) =
        some [false, false, false, false, false] ∧
      look 0xD011 (regs [(0, 62), (1, 33)] (((under wrapCfg).setI 0x300).writeByte 0x300 0xFF))
        (fun t => span t.fb 61 5 1) = some [false, true, true, false, false] := by decide

/-- 41-8, 41-10, 41-7, 41-12, 41-14: a partial collision, the same sprite again, X = 15, no row, and the range check. -/
theorem test_drw_edges :
    look 0xD011 (((State.reset.setI 0x300).writeByte 0x300 0xC0).setFb (fbOf [(1,0)]))
        (fun t => (span t.fb 0 3 0, t.getV VF)) = some ([true, false, false], 1) ∧
      ((after 0xD011 ((State.reset.setI 0x300).writeByte 0x300 0xC0)).bind (after 0xD011)).map
        (fun t => (span t.fb 0 3 0, t.getV VF)) = some ([false, false, false], 1) ∧
      look 0xDF01 (regs [(15, 5)] ((State.reset.setI 0x300).writeByte 0x300 0x80))
        (fun t => (span t.fb 4 3 0, t.getV VF)) = some ([false, true, false], 0) ∧
      look 0xD010 (regs [(15, 1)] (State.reset.setI 0x300)) (fun t => (t.status, t.getV VF)) = some (.ok, 0) ∧
      look 0xD01F (State.reset.setI 0xFF2) (fun t => (t.status, t.pc)) =
        some (.fault (.memOutOfRange 0x1000), 0x200) ∧
      look 0xD012 (regs [(15, 7), (1, 40)] (State.reset.setI 0xFFF)) (fun t => (t.status, t.getV VF)) =
        some (.fault (.memOutOfRange 0x1000), 7) := by decide

/-! ### Control flow and the stack (2.3) -/

/-- 42-1, 42-2, 40-5. -/
theorem test_ret :
    look 0x00EE (State.reset.setPc 0x300) (fun t => (t.status, t.pc, t.sp, t.run)) =
        some (.fatalStackUnderflow, 0x302, 0, .ended .stackUnderflow) ∧
      look 0x00EE { State.reset with pc := 0x300, sp := 1, stack := [0x202, 0] } (fun t => (t.status, t.pc, t.sp, t.stack)) =
        some (.ok, 0x202, 0, [0x202, 0]) ∧
      look 0x0AEE { under lowByteCfg with sp := 1, stack := [0x246, 0] } (fun t => (t.status, t.pc, t.sp)) =
        some (.ok, 0x246, 0) := by decide

/-- 42-3, 42-4, 42-17. -/
theorem test_jp :
    look 0x1234 State.reset (fun t => (t.pc, t.status)) = some (0x234, .ok) ∧
      look 0x1200 State.reset (fun t => (t.pc, t.run)) = some (0x200, .running) ∧
      look 0x1201 State.reset (fun t => t.pc) = some 0x201 := by decide

/-- S12, 42-6: the stack full. -/
theorem test_call :
    look 0x2300 State.reset (fun t => (t.pc, t.sp, t.stack[0]?, t.status)) = some (0x300, 1, some 0x202, .ok) ∧
      look 0x2400 (deep 16 State.reset) (fun t => (t.status, t.pc, t.sp, t.stack[15]?)) =
        some (.stackOverflowStall, 0x200, 16, some 0x11E) := by decide

/-- 42-8, 42-10, 42-14. -/
theorem test_se_imm :
    look 0x332A (regs [(3, 0x2A)] State.reset) (fun t => t.pc) = some 0x204 ∧
      look 0x3F01 (regs [(15, 1)] State.reset) (fun t => t.pc) = some 0x204 ∧
      look 0x3000 (State.reset.setPc 0xFFC) (fun t => (t.pc, t.status)) = some (0x1000, .ok) := by decide

/-- 42-9, and the other case. -/
theorem test_sne_imm :
    look 0x432A (regs [(3, 0x2A)] State.reset) (fun t => t.pc) = some 0x202 ∧
      look 0x432A (regs [(3, 0x2B)] State.reset) (fun t => t.pc) = some 0x204 := by decide

/-- 42-11: N ignored. -/
theorem test_se_reg : look 0x5127 State.reset (fun t => (t.pc, t.status)) = some (0x204, .ok) := by decide

/-- 42-12, 42-13. -/
theorem test_sne_reg :
    look 0x9110 State.reset (fun t => t.pc) = some 0x202 ∧
      look 0x9120 (regs [(1, 7), (2, 8)] State.reset) (fun t => t.pc) = some 0x204 := by decide

/-- 42-15, 42-16: the sum is not masked. -/
theorem test_jp_v0 :
    look 0xB300 (regs [(0, 0x10)] State.reset) (fun t => t.pc) = some 0x310 ∧
      look 0xBFFF (regs [(0, 0xFF)] State.reset) (fun t => (t.pc, t.status)) = some (0x10FE, .ok) := by decide

/-! ### ALU (2.4) -/

/-- S10. -/
theorem test_ld_imm : look 0x6A05 State.reset (fun t => (t.getV 10, t.pc, t.status)) = some (5, 0x202, .ok) := by decide

/-- 43-1, 43-2. -/
theorem test_add_imm :
    look 0x70FF (regs [(0, 1), (15, 7)] State.reset) (fun t => (t.getV 0, t.getV VF)) = some (0, 7) ∧
      look 0x7F01 (regs [(15, 0xFF)] State.reset) (fun t => t.getV VF) = some 0 := by decide

/-- 43-3. -/
theorem test_ld_reg :
    look 0x8F10 (regs [(1, 0x42), (15, 1)] State.reset) (fun t => (t.getV VF, t.getV 1)) = some (0x42, 0x42) := by decide

/-- 43-4, 43-5. -/
theorem test_or :
    look 0x8F11 (regs [(1, 0x0F), (15, 0xF0)] State.reset) (fun t => t.getV VF) = some 0 ∧
      look 0x81F1 (regs [(1, 0x01), (15, 0x80)] State.reset) (fun t => (t.getV 1, t.getV VF)) = some (0x81, 0) := by decide

/-- 43-6, and the example of R185. -/
theorem test_and :
    look 0x8122 (regs [(1, 0xF0), (2, 0x0F), (15, 1)] State.reset) (fun t => (t.getV 1, t.getV VF)) = some (0, 0) ∧
      look 0x8122 (regs [(1, 0x3C), (2, 0x0F), (15, 1)] State.reset) (fun t => (t.getV 1, t.getV VF)) =
        some (0x0C, 0) := by decide

/-- 43-7, and the example of R186. -/
theorem test_xor :
    look 0x8113 (regs [(1, 0x5A), (15, 1)] State.reset) (fun t => (t.getV 1, t.getV VF)) = some (0, 0) ∧
      look 0x8123 (regs [(1, 0xFF), (2, 0x0F), (15, 1)] State.reset) (fun t => (t.getV 1, t.getV VF)) =
        some (0xF0, 0) := by decide

/-- S3, 43-8, 43-10. -/
theorem test_add_reg :
    look 0x8124 (regs [(1, 0x80), (2, 0x7F), (15, 9)] State.reset) (fun t => (t.getV 1, t.getV VF)) = some (0xFF, 0) ∧
      look 0x8124 (regs [(1, 0x80), (2, 0x80)] State.reset) (fun t => (t.getV 1, t.getV VF)) = some (0, 1) ∧
      look 0x8114 (regs [(1, 0x81)] State.reset) (fun t => (t.getV 1, t.getV VF)) = some (2, 1) := by decide

/-- 43-11: X = 15 under both write orders. -/
theorem test_add_reg_vf :
    look 0x8F04 (regs [(0, 1), (15, 0xFF)] State.reset) (fun t => t.getV VF) = some 0 ∧
      look 0x8F04 (regs [(0, 1), (15, 0xFF)] (under flagLastCfg)) (fun t => t.getV VF) = some 1 := by decide

/-- S4, 43-12. -/
theorem test_sub :
    look 0x8125 (regs [(1, 5), (2, 3)] State.reset) (fun t => (t.getV 1, t.getV VF)) = some (2, 1) ∧
      look 0x8125 (regs [(1, 7), (2, 7)] State.reset) (fun t => (t.getV 1, t.getV VF)) = some (0, 0) ∧
      look 0x8125 (regs [(1, 0), (2, 1)] State.reset) (fun t => (t.getV 1, t.getV VF)) = some (0xFF, 0) := by decide

/-- 43-13. -/
theorem test_sub_vf :
    look 0x8F05 (regs [(0, 1), (15, 5)] State.reset) (fun t => t.getV VF) = some 4 ∧
      look 0x8F05 (regs [(0, 1), (15, 5)] (under flagLastCfg)) (fun t => t.getV VF) = some 1 := by decide

/-- 43-14, 43-15, 43-16. -/
theorem test_subn :
    look 0x8127 (regs [(1, 3), (2, 5)] State.reset) (fun t => (t.getV 1, t.getV VF)) = some (2, 1) ∧
      look 0x8127 (regs [(1, 9), (2, 9)] State.reset) (fun t => (t.getV 1, t.getV VF)) = some (0, 0) ∧
      look 0x8127 (regs [(1, 5), (2, 3)] State.reset) (fun t => (t.getV 1, t.getV VF)) = some (0xFE, 0) := by decide

/-- 43-17, 43-18, 43-20, 43-21. -/
theorem test_shr :
    look 0x8126 (regs [(1, 0xFF), (2, 3)] State.reset) (fun t => (t.getV 1, t.getV VF, t.getV 2)) = some (1, 1, 3) ∧
      look 0x8126 (regs [(1, 1), (2, 0x80)] State.reset) (fun t => (t.getV 1, t.getV VF)) = some (0x40, 0) ∧
      look 0x8F16 (regs [(1, 2)] State.reset) (fun t => t.getV VF) = some 0 ∧
      look 0x81F6 (regs [(15, 3)] State.reset) (fun t => (t.getV 1, t.getV VF)) = some (1, 1) := by decide

/-- S5, 43-22, 43-23, 43-24. -/
theorem test_shl :
    look 0x812E (regs [(2, 0x81)] State.reset) (fun t => (t.getV 1, t.getV VF)) = some (2, 1) ∧
      look 0x812E (regs [(2, 0x80)] State.reset) (fun t => (t.getV 1, t.getV VF)) = some (0, 1) ∧
      look 0x812E (regs [(1, 0x11), (2, 0x7F)] State.reset) (fun t => (t.getV 1, t.getV VF)) = some (0xFE, 0) ∧
      look 0x8F1E (regs [(1, 0x40)] State.reset) (fun t => t.getV VF) = some 0 := by decide

/-- 43-25, 43-27: the effect of RND for a given draw, which is a free value in the machine. -/
theorem test_rnd_with :
    (rndWith 0xB7 3 0x0F State.reset).getV 3 = 0x07 ∧ (rndWith 0xA5 3 0xFF State.reset).getV 3 = 0xA5 := by decide

/-- 43-26: with a zero mask the result is 0 whatever the draw, and one draw has been taken. -/
theorem test_rnd :
    (after 0xC300 State.reset).map (fun t => (t.pc, t.draws)) = some (0x202, 1) ∧
      ∀ r : Byte, (rndWith r 3 0x00 State.reset).getV 3 = 0 := by
  refine ⟨by decide, fun r => ?_⟩
  simp [rndWith]

/-! ### Index register and memory (2.5) -/

/-- 44-1. -/
theorem test_ld_i : look 0xA2F0 State.reset (fun t => (t.i, t.status)) = some (0x2F0, .ok) := by decide

/-- 44-2, 44-3. -/
theorem test_add_i :
    look 0xF21E (regs [(2, 1)] (State.reset.setI 0xFFF)) (fun t => (t.i, t.getV VF)) = some (0x1000, 0) ∧
      look 0xF21E (regs [(2, 1), (15, 9)] (State.reset.setI 0xFFFF)) (fun t => (t.i, t.getV VF)) = some (0, 9) := by decide

/-- 44-4: Vx is not masked. -/
theorem test_ld_f :
    look 0xF029 (regs [(0, 0xA)] State.reset) (fun t => t.i) = some 0x082 ∧
      look 0xF029 (regs [(0, 0xFF)] State.reset) (fun t => t.i) = some 0x54B := by decide

/-- S8, 44-5. -/
theorem test_bcd :
    look 0xF033 (regs [(0, 156)] (State.reset.setI 0x300)) (fun t => (t.readBytes 0x300 3, t.i)) =
        some ([1, 5, 6], 0x300) ∧
      look 0xF033 (regs [(0, 255)] (State.reset.setI 0x300)) (fun t => t.readBytes 0x300 3) = some [2, 5, 5] := by decide

/-- 44-6, 44-7. -/
theorem test_bcd_range :
    look 0xF033 (regs [(0, 123)] (State.reset.setI 0xFFD)) (fun t => t.readBytes 0xFFD 3) = some [1, 2, 3] ∧
      look 0xF033 (regs [(0, 123)] (State.reset.setI 0xFFE)) (fun t => (t.status, t.pc, t.readByte 0xFFE)) =
        some (.fault (.memOutOfRange 0x1000), 0x200, 0) := by decide

/-- 44-13, 44-8. -/
theorem test_store :
    look 0xF155 (regs [(0, 0x12), (1, 0x34)] (State.reset.setI 0x202)) (fun t => (t.readBytes 0x202 2, t.i, t.pc)) =
        some ([0x12, 0x34], 0x204, 0x202) ∧
      look 0xFF55 (regs [(15, 0xEE)] (State.reset.setI 0xFF0)) (fun t => (t.readByte 0xFFE, t.readByte 0xFFF, t.i)) =
        some (0, 0xEE, 0x1000) := by decide

/-- 44-9, 44-10. -/
theorem test_store_range :
    look 0xFF55 (State.reset.setI 0xFF1) (fun t => (t.status, t.i, t.mem.length)) =
        some (.fault (.memOutOfRange 0x1000), 0xFF1, 2) ∧
      look 0xF055 (regs [(0, 0x77)] (State.reset.setI 0xFFF)) (fun t => (t.readByte 0xFFF, t.i)) =
        some (0x77, 0x1000) := by decide

/-- 44-12. -/
theorem test_load :
    look 0xFF65 ((State.reset.setI 0x300).writeBytes 0x300 ((List.range 16).map fun k => BitVec.ofNat 8 (0x10 + k)))
      (fun t => (t.v.toList, t.i)) =
        some ([0x10, 0x11, 0x12, 0x13, 0x14, 0x15, 0x16, 0x17] ++ [0x18, 0x19, 0x1A, 0x1B, 0x1C, 0x1D, 0x1E, 0x1F],
          0x310) := by decide

/-- 44-11. -/
theorem test_load_range :
    look 0xF065 (State.reset.setI 0xFFFF) (fun t => (t.status, t.i)) =
      some (.fault (.memOutOfRange 0xFFFF), 0xFFFF) := by decide

/-! ### Timers and keys (2.6) -/

/-- 45-1, 45-2, 45-5. -/
theorem test_skp :
    look 0xE59E (regs [(5, 10)] (State.reset.setKeys (keysOf [10]))) (fun t => t.pc) = some 0x204 ∧
      look 0xE59E (regs [(5, 10)] State.reset) (fun t => t.pc) = some 0x202 ∧
      look 0xE59E (regs [(5, 16)] State.reset) (fun t => (t.status, t.pc)) =
        some (.fault (.keyIndexOutOfRange 16), 0x200) := by decide

/-- 45-3, 45-4, 45-6. -/
theorem test_sknp :
    look 0xE5A1 (regs [(5, 10)] State.reset) (fun t => t.pc) = some 0x204 ∧
      look 0xE5A1 (regs [(5, 10)] (State.reset.setKeys (keysOf [10]))) (fun t => t.pc) = some 0x202 ∧
      look 0xE5A1 (regs [(5, 255)] State.reset) (fun t => (t.status, t.pc)) =
        some (.fault (.keyIndexOutOfRange 255), 0x200) := by decide

/-- 45-7, 45-8, 45-11. -/
theorem test_wait_key :
    look 0xF20A State.reset (fun t => (t.pc, t.getV 2, t.status, t.draws)) = some (0x200, 0, .ok, 0) ∧
      look 0xF20A ((under sameCfg).setKeys (keysOf [3, 7])) (fun t => (t.pc, t.getV 2)) = some (0x200, 3) ∧
      look 0xFF0A ((under sameCfg).setKeys (keysOf [12])) (fun t => (t.pc, t.getV VF)) = some (0x200, 12) := by decide

/-- 45-9, 45-10: the effect of FX0A once key 3 is found, for a given re-check sample. -/
theorem test_wait_key_found :
    ((keyFound (keysOf []) 2 3 (advance State.reset)).pc, (keyFound (keysOf []) 2 3 (advance State.reset)).getV 2) =
        (0x202, 3) ∧
      ((keyFound (keysOf [0]) 2 3 (advance State.reset)).pc, (keyFound (keysOf [0]) 2 3 (advance State.reset)).getV 2) =
        (0x200, 3) := by decide

/-- 45-12, 45-13, 45-14. -/
theorem test_timers :
    look 0xF207 (State.reset.setDt 0x3C) (fun t => t.getV 2) = some 0x3C ∧
      look 0xF215 (State.reset.setDt 9) (fun t => t.dt) = some 0 ∧
      look 0xF518 (regs [(5, 5)] State.reset) (fun t => t.st) = some 5 := by decide

/-- 45-15. -/
theorem test_tick :
    ((tick ((State.reset.setDt 2).setSt 1)).dt, (tick ((State.reset.setDt 2).setSt 1)).st) = (1, 0) ∧
      ((tick State.reset).dt, (tick State.reset).st) = (0, 0) ∧
      (tick ((under { defaultConfig with soundTimerTicks := false }).setSt 1)).st = 1 := by decide

/-! ### Initialization and load (2.7) -/

/-- 70-1. -/
theorem test_reset :
    State.reset.readBytes 0x050 5 = [0xF0, 0x90, 0x90, 0x90, 0xF0] ∧
      State.reset.readBytes 0x09B 5 = [0xF0, 0x80, 0xF0, 0x80, 0x80] ∧ State.reset.readByte 0x04F = 0 ∧
      State.reset.readByte 0x0A0 = 0 ∧ State.reset.pc = 0x200 ∧ State.reset.run = .running := by decide

/-- 70-4: what the machine does from reset with nothing loaded. -/
theorem test_reset_step :
    (nextState? (step State.reset)).map (fun t => (t.status, t.pc)) = some (.unimplemented 0x0000, 0x202) := by decide

/-- The words of program P1, loaded: the bytes lie at 0x200 in order. -/
theorem test_rom_load :
    ((romLoad [0x60, 0x00, 0x61, 0x00] State.reset).readBytes 0x200 4, (romLoad [0x60] State.reset).status) =
      ([0x60, 0x00, 0x61, 0x00], .ok) := by decide

/-- 70-3. -/
theorem test_rom_too_large :
    romLoad (List.replicate 3585 0) State.reset = State.reset.setStatus (.romTooLarge 3585) := by
  rw [romLoad, if_pos (by rw [List.length_replicate]; decide), List.length_replicate]

/-- 70-2: the longest ROM is accepted. -/
theorem test_rom_longest : ¬ (List.replicate 3584 (0 : Byte)).length > maxRom := by
  rw [List.length_replicate]
  decide

/-- The memory port's trace of a store of two registers: the fetch, then the writes, in order (R61). -/
theorem test_accesses :
    memAccesses (.storeRegs 1) (State.reset.setI 0x300) = [.read 0x200, .read 0x201, .write 0x300, .write 0x301] ∧
      memAccesses (.drw 0 1 2) (State.reset.setI 0x050) = [.read 0x200, .read 0x201, .read 0x050, .read 0x051] := by decide

/-! ### Witnesses: for each obligation with hypotheses, a state and operands that meet them together, clause by clause at
the boundary values. An obligation not named here has no hypothesis. -/

/-- The state a step or an instruction leaves, where it answers one. -/
theorem next_of_isSome {r : Result} (h : (nextState? r).isSome = true) : ∃ t, r = .next t := by
  cases r with
  | next t => exact ⟨t, rfl⟩
  | fault f => cases h
  | refused e => cases h

/-- `s` with `i` placed at PC. -/
def at' (i : Instr) (s : State) : State := placeWord s (encode i)

/-- DecodeInvertsEncode. -/
theorem witness_DecodeInvertsEncode :
    Instr.wellFormed .fullWord (.sys 0xFFF) = true ∧ Instr.wellFormed .lowByte (.sys 0x000) = true ∧
      Instr.wellFormed .lowByte (.drw 15 0 15) = true := by decide

/-- EncodeInvertsDecode. -/
theorem witness_EncodeInvertsDecode :
    decodeWord .fullWord 0x0000 = .ok (.sys 0) ∧ decodeWord .fullWord 0xFF65 = .ok (.loadRegs 15) ∧
      decodeWord .lowByte 0x0FE0 = .ok .cls := by decide

/-- Class0MatchSelects. -/
theorem witness_Class0MatchSelects :
    fieldC 0x00E0 = 0x0 ∧ fieldC 0x0FEE = 0x0 ∧ fieldC 0x0FFF = 0x0 ∧ fieldX 0x0FEE ≠ 0 ∧ fieldKK 0x0FEE = 0xEE := by decide

/-- LowNibbleIgnored, both classes. -/
theorem witness_LowNibbleIgnored :
    fieldC 0x5000 = 0x5 ∧ fieldC 0x5FFF = 0x5 ∧ fieldC 0x9000 = 0x9 ∧ fieldC 0x9FFF = 0x9 := by decide

/-- StepRunsDecodedInstruction: a word at the top of memory that goes on, and one whose instruction faults. -/
theorem witness_StepRunsDecodedInstruction :
    (at' (.ldImm 10 5) (State.reset.setPc 0xFFE)).AtInstr (.ldImm 10 5) ∧
      (nextState? (exec (.ldImm 10 5) (advance (at' (.ldImm 10 5) (State.reset.setPc 0xFFE))))).isSome = true ∧
      (at' (.loadRegs 0) (State.reset.setI 0x1000)).AtInstr (.loadRegs 0) ∧
      exec (.loadRegs 0) (advance (at' (.loadRegs 0) (State.reset.setI 0x1000))) =
        .fault (.memOutOfRange 0x1000) :=
  ⟨by decide, by decide, by decide, rfl⟩

/-- FetchReadsOrFaults, both sides of the bound. -/
theorem witness_FetchReadsOrFaults :
    (State.reset.setPc 0xFFE).pc.toNat + 1 < 4096 ∧ 4096 ≤ (State.reset.setPc 0xFFF).pc.toNat + 1 ∧
      4096 ≤ (State.reset.setPc 0xFFFF).pc.toNat + 1 ∧ (State.reset.setPc 0xFFF).run = .running := by decide

/-- UnimplementedStepOnlyAdvances. -/
theorem witness_UnimplementedStepOnlyAdvances :
    (placeWord State.reset 0x8AB8).run = .running ∧ fetch (placeWord State.reset 0x8AB8) = .ok 0x8AB8 ∧
      decodeWord (placeWord State.reset 0x8AB8).cfg.class0Match 0x8AB8 = .error (.unimplemented 0x8AB8) := by decide

/-- EndedStepReportsNotRunning, EndedRunStaysEnded. -/
theorem witness_EndedRun : endedState.run = .ended .stackUnderflow := rfl

/-- StatusTellsRunState: a step that reports each of the six statuses of a step. -/
theorem witness_StatusTellsRunState :
    look 0x00E0 State.reset State.status = some .ok ∧
      look 0x0000 State.reset State.status = some (.unimplemented 0) ∧
      look 0x2200 (deep 16 State.reset) State.status = some .stackOverflowStall ∧
      look 0x00EE State.reset State.status = some .fatalStackUnderflow ∧
      look 0xE09E (regs [(0, 16)] State.reset) State.status = some (.fault (.keyIndexOutOfRange 16)) ∧
      (nextState? (step endedState)).map State.status = some .notRunning := by decide

/-- InstructionStatusTable: the fetch clause at its bound, and the unimplemented clause. -/
theorem witness_InstructionStatusTable :
    State.reset.run = .running ∧ 0xFFF ≤ (State.reset.setPc 0xFFF).pc.toNat ∧
      fetch (placeWord State.reset 0xE000) = .ok 0xE000 ∧
      decodeWord (placeWord State.reset 0xE000).cfg.class0Match 0xE000 = .error (.unimplemented 0xE000) := by decide

/-- StepKeepsInvariant, StepNeverWritesKeys, FrameKeepsInvariant. -/
theorem witness_StepKeepsInvariant : State.reset.Inv ∧ ∃ t, step State.reset = .next t :=
  ⟨by decide, next_of_isSome (by decide)⟩

/-- ResetMeetsInvariant, InitializationValues: admitted configurations at their bounds. -/
theorem witness_ResetMeetsInvariant :
    Config.valid { defaultConfig with stackDepth := 1, fontBase := 0x1B0 } = true ∧
      Config.valid { defaultConfig with fontBase := 0 } = true ∧ Config.valid defaultConfig = true := by decide

/-- OnlyCallAndRetMoveStack: CALL moves SP and changes an entry, RET moves SP. -/
theorem witness_OnlyCallAndRetMoveStack :
    (nextState? (exec (.call 0x300) State.reset)).map (fun t => (decide (t.sp ≠ State.reset.sp), decide (t.stack ≠ State.reset.stack))) =
        some (true, true) ∧
      (nextState? (exec .ret (deep 1 State.reset))).map (fun t => decide (t.sp ≠ (deep 1 State.reset).sp)) = some true := by decide

/-- OnlyClsAndDrwChangeFramebuffer: both change a pixel. -/
theorem witness_OnlyClsAndDrwChangeFramebuffer :
    (nextState? (exec .cls (State.reset.setFb (fbOf [(3, 3)])))).map (fun t => pixel t.fb 3 3) = some false ∧
      (nextState? (exec (.drw 0 1 1) (State.reset.setI 0x50))).map (fun t => pixel t.fb 0 0) = some true := by decide

/-- MemoryChangesOnlyAtWrites: the last byte of memory changes. -/
theorem witness_MemoryChangesOnlyAtWrites :
    (nextState? (exec (.storeRegs 0) (regs [(0, 7)] (State.reset.setI 0xFFF)))).map
      (fun t => decide (t.readByte 0xFFF ≠ State.reset.readByte 0xFFF)) = some true := by decide

/-- TimersWrittenOnlyByLoads: both timers change. -/
theorem witness_TimersWrittenOnlyByLoads :
    (nextState? (exec (.ldDtVx 0) (regs [(0, 7)] State.reset))).map (fun t => decide (t.dt ≠ 0)) = some true ∧
      (nextState? (exec (.ldStVx 0) (regs [(0, 7)] State.reset))).map (fun t => decide (t.st ≠ 0)) = some true := by decide

/-- VfWrittenOnlyAsListed. -/
theorem witness_VfWrittenOnlyAsListed :
    (nextState? (exec (.orReg 0 1) (regs [(15, 7)] State.reset))).map (fun t => decide (t.getV VF ≠ 7)) = some true := by decide

/-- OnlyEmptyRetEndsRun. -/
theorem witness_OnlyEmptyRetEndsRun :
    (nextState? (exec .ret State.reset)).map (fun t => decide (t.run ≠ State.reset.run)) = some true := by decide

/-- DrwXorsPixelsAndFlagsCollision: no row with I out of range, the last row in range, one byte too many, and the
premises of both flag clauses. -/
theorem witness_DrwXorsPixelsAndFlagsCollision :
    (State.reset.setI 0xFF1).i.toNat + (15 : Nibble).toNat ≤ 4096 ∧
      4096 < (State.reset.setI 0xFF2).i.toNat + (15 : Nibble).toNat ∧ (15 : Nibble) ≠ 0 ∧
      (∃ px py, SpriteTouches (State.reset.setI 0x50) 0 1 1 px py) ∧
      ∀ px py, SpriteTouches (State.reset.setI 0x50) 0 1 1 px py → pixel State.reset.fb px py = false := by
  refine ⟨by decide, by decide, by decide, ⟨0, 0, 0, 0, by decide, by decide, by decide, (by decide : 0 + 0 < 64 ∧ 0 + 0 < 32), by decide, by decide⟩,
    fun px py _ => ?_⟩
  exact pixel_clearFb px py

/-- DrwXorsPixelsAndFlagsCollision: a touched pixel that is on. -/
theorem witness_DrwCollision :
    ∃ px py, SpriteTouches ((State.reset.setI 0x50).setFb (fbOf [(0, 0)])) 0 1 1 px py ∧
      pixel ((State.reset.setI 0x50).setFb (fbOf [(0, 0)])).fb px py = true :=
  ⟨0, 0, ⟨0, 0, by decide, by decide, by decide, (by decide : 0 + 0 < 64 ∧ 0 + 0 < 32), by decide, by decide⟩, by decide⟩

/-- DrwTwiceRestoresFramebuffer: the font's glyph 0 at (0, 0), twice. -/
theorem witness_DrwTwiceRestoresFramebuffer :
    ∃ t u, exec (.drw 0 1 1) (State.reset.setI 0x50) = .next t ∧ t.getV 0 = (State.reset.setI 0x50).getV 0 ∧
      t.getV 1 = (State.reset.setI 0x50).getV 1 ∧ exec (.drw 0 1 1) t = .next u :=
  ⟨_, _, rfl, rfl, rfl, rfl⟩

/-- RetPopsOrEndsRun: the empty stack, one entry, and a full stack. -/
theorem witness_RetPopsOrEndsRun :
    State.reset.sp = 0 ∧ (deep 1 State.reset).sp ≠ 0 ∧ (deep 1 State.reset).stack[1 - 1]? = some 0x100 ∧
      (deep 16 State.reset).stack[16 - 1]? = some 0x11E := by decide

/-- CallPushesOrStalls: the first and the last free entry, and a full stack. -/
theorem witness_CallPushesOrStalls :
    (deep 0 State.reset).sp < (deep 0 State.reset).cfg.stackDepth ∧
      (deep 15 State.reset).sp < (deep 15 State.reset).cfg.stackDepth ∧
      (deep 15 State.reset).stack.length = (deep 15 State.reset).cfg.stackDepth ∧
      (deep 16 State.reset).sp = (deep 16 State.reset).cfg.stackDepth := by decide

/-- CallPushesOrStalls: a CALL to itself at PC with the stack full. -/
theorem witness_CallStalled :
    (at' (.call 0x200) (deep 16 State.reset)).AtInstr (.call 0x200) ∧
      (at' (.call 0x200) (deep 16 State.reset)).sp = (at' (.call 0x200) (deep 16 State.reset)).cfg.stackDepth := by decide

/-- PushPopIsLifo: two pushes that fit, and exactly as many as fit. -/
theorem witness_PushPopIsLifo :
    State.reset.Inv ∧ (pushAll [0x202, 0x304] State.reset).isSome = true ∧
      (pushAll (List.replicate 16 0x202) State.reset).isSome = true ∧
      (pushAll (List.replicate 17 0x202) State.reset).isSome = false := by decide

/-- JumpToSelfSpins. -/
theorem witness_JumpToSelfSpins :
    (at' (.jp 0x200) State.reset).AtInstr (.jp 0x200) ∧
      (at' (.jp 0x200) State.reset).pc.toNat = (0x200 : Addr).toNat := by decide

/-- LogicOpsClearVf, ShiftsSourceVy and the ALU statements of R190: X may be any register but VF, or VF, under either
order. -/
theorem witness_WriteOrder :
    (14 : RegIx) ≠ VF ∧ (15 : RegIx) = VF ∧ State.reset.cfg.aluFlagOrder = .flagThenResult ∧
      (under flagLastCfg).cfg.aluFlagOrder = .resultThenFlag := by decide

/-- BcdStoresDigits: the last range in memory, the first out of it, and the largest I. -/
theorem witness_BcdStoresDigits :
    Memory.wf State.reset.cfg.fontBase State.reset.mem = true ∧ (State.reset.setI 0xFFD).i.toNat + 2 < 4096 ∧
      4096 ≤ (State.reset.setI 0xFFE).i.toNat + 2 ∧ 4096 ≤ (State.reset.setI 0xFFFF).i.toNat + 2 := by decide

/-- StoreWritesLeadingRegisters, LoadReadsLeadingRegisters: the last range in memory and the first out of it. -/
theorem witness_StoreAndLoadRange :
    Memory.wf State.reset.cfg.fontBase State.reset.mem = true ∧
      (State.reset.setI 0xFF0).i.toNat + (15 : RegIx).val < 4096 ∧
      4096 ≤ (State.reset.setI 0xFF1).i.toNat + (15 : RegIx).val ∧
      (State.reset.setI 0xFFF).i.toNat + (0 : RegIx).val < 4096 ∧
      4096 ≤ (State.reset.setI 0x1000).i.toNat + (0 : RegIx).val := by decide

/-- StoreThenLoadRestores. -/
theorem witness_StoreThenLoadRestores :
    Memory.wf State.reset.cfg.fontBase State.reset.mem = true ∧
      ∃ t, exec (.storeRegs 15) (State.reset.setI 0xFF0) = .next t :=
  ⟨by decide, next_of_isSome (by decide)⟩

/-- StoredCodeIsFetched: FX55 over both bytes of the last word of memory, over its low byte alone and over its high byte
alone. -/
theorem witness_StoredCodeIsFetched :
    Memory.wf State.reset.cfg.fontBase State.reset.mem = true ∧ (State.reset.setPc 0xFFE).pc.toNat + 1 < 4096 ∧
      (∃ t, exec (.storeRegs 15) ((State.reset.setPc 0xFFE).setI 0xFF0) = .next t) ∧
      (∃ t, exec (.storeRegs 0) ((State.reset.setPc 0xFFE).setI 0xFFF) = .next t) ∧
      ∃ t, exec (.storeRegs 0) ((State.reset.setPc 0xFFE).setI 0xFFE) = .next t :=
  ⟨by decide, by decide, next_of_isSome (by decide), next_of_isSome (by decide), next_of_isSome (by decide)⟩

/-- StoredCodeIsFetched: FX33 over both bytes at the top of memory, and over the high byte alone. -/
theorem witness_StoredDigitsAreFetched :
    (∃ t, exec (.ldB 0) ((State.reset.setPc 0xFFE).setI 0xFFD) = .next t) ∧
      ∃ t, exec (.ldB 0) ((State.reset.setPc 0x302).setI 0x300) = .next t :=
  ⟨next_of_isSome (by decide), next_of_isSome (by decide)⟩

/-- CanonicalMemoryIsUnique: a memory with a listed font byte and a listed program byte. -/
theorem witness_CanonicalMemoryIsUnique :
    Memory.wf 0x50 [(0x50, 0x00), (0x200, 0x60)] = true ∧ Memory.wf 0x50 [] = true ∧
      Memory.wf 0x50 [(0x50, 0xF0)] = false := by decide

/-- KeySkipsOrFaults: the last key, the first index out of range, and the largest. -/
theorem witness_KeySkipsOrFaults :
    ((regs [(5, 15)] State.reset).getV 5).toNat = (15 : Fin 16).val ∧
      15 < ((regs [(5, 16)] State.reset).getV 5).toNat ∧ 15 < ((regs [(5, 255)] State.reset).getV 5).toNat := by decide

/-- WaitForKeyTable: no key; the first and the last key alone, with the sample of each setting. -/
theorem witness_WaitForKeyTable :
    (∀ k, State.reset.keys.get k = false) ∧
      ((keysOf [0]).get 0 = true ∧ ∀ j : Fin 16, j < 0 → (keysOf [0]).get j = false) ∧
      ((keysOf [15]).get 15 = true ∧ ∀ j : Fin 16, j < 15 → (keysOf [15]).get j = false) ∧
      (under sameCfg).cfg.keyRecheck = .sameSample ∧ State.reset.cfg.keyRecheck = .freshSample := by decide

/-- SameSampleWaitNeverCompletes, with no key and with one. -/
theorem witness_SameSampleWaitNeverCompletes :
    (at' (.ldVxK 2) (under sameCfg)).cfg.keyRecheck = .sameSample ∧
      (at' (.ldVxK 2) (under sameCfg)).AtInstr (.ldVxK 2) ∧
      (at' (.ldVxK 2) ((under sameCfg).setKeys (keysOf [3]))).AtInstr (.ldVxK 2) ∧
      (nextState? (runSteps 2 (at' (.ldVxK 2) ((under sameCfg).setKeys (keysOf [3]))))).isSome = true := by decide

/-- RomLoadCopiesOrRejects: an empty ROM, the longest one, and one byte too many. -/
theorem witness_RomLoadCopiesOrRejects :
    Memory.wf State.reset.cfg.fontBase State.reset.mem = true ∧ ([] : List Byte).length ≤ 3584 ∧
      (List.replicate 3584 (0 : Byte)).length ≤ 3584 ∧ 3584 < (List.replicate 3585 (0 : Byte)).length := by
  simp only [List.length_replicate]
  decide

/-- FrameKeepsInvariant: a run that has ended, with both timers at one and at zero. -/
theorem witness_FrameOfEndedRun :
    ((endedState.setDt 1).setSt 1).Inv ∧ ((endedState.setDt 1).setSt 1).run = .ended .stackUnderflow ∧
      endedState.Inv ∧ endedState.dt = 0 := by decide

/-- PlacedWordIsFetched: the last PC that can be fetched from, and the first that cannot. -/
theorem witness_PlacedWordIsFetched :
    Memory.wf State.reset.cfg.fontBase State.reset.mem = true ∧ (State.reset.setPc 0xFFE).pc.toNat + 1 < 4096 ∧
      4096 ≤ (State.reset.setPc 0xFFF).pc.toNat + 1 := by decide

end Sys2Proof.Tests
end

section
/-! PROOFS. What every instruction and every step may change, said once (spec/10_state.md), and the statements that
follow from it: an instruction's `execWrites` bounds its frame, and every update keeps the machine's invariant. -/

namespace Sys2Proof.Machine

/-! ### The stack keeps the invariant (R27-R30) -/

theorem State.push_eq_some {s t : State} {a : Word} :
    s.push a = some t ↔ s.sp ≠ s.cfg.stackDepth ∧ t = { s with stack := s.stack.set s.sp a, sp := s.sp + 1 } := by
  rcases s.push_cases a with ⟨hsp, h⟩ | ⟨hsp, h⟩ <;> simp [hsp, h, eq_comm]

theorem State.push_inv {s t : State} {a : Word} (hs : s.Inv) (h : s.push a = some t) : t.Inv := by
  obtain ⟨hcfg, hmem, hlen, hle⟩ := hs
  obtain ⟨hroom, rfl⟩ := State.push_eq_some.mp h
  exact ⟨hcfg, hmem, by simpa using hlen, Nat.lt_of_le_of_ne hle hroom⟩

theorem State.pop_eq_some {s t : State} {a : Word} :
    s.pop = some (a, t) ↔ s.sp ≠ 0 ∧ a = (s.stack[s.sp - 1]?).getD 0 ∧ t = { s with sp := s.sp - 1 } := by
  rcases s.pop_cases with ⟨hsp, h⟩ | ⟨hsp, h⟩ <;> simp [hsp, h, eq_comm]

/-! ### Runs of bytes and of registers -/

theorem mem_addrRange {base n a : Nat} : a ∈ addrRange base n ↔ base ≤ a ∧ a < base + n := by
  induction n generalizing base with
  | zero => simp [addrRange]
  | succ n ih =>
    rw [addrRange, List.mem_cons, ih]
    omega

/-- The registers V0..VX. -/
def regsUpTo (x : RegIx) : List RegIx := (List.finRange 16).filter fun k => decide (k ≤ x)

theorem mem_regsUpTo {x r : RegIx} : r ∈ regsUpTo x ↔ r ≤ x := by
  simp [regsUpTo]

/-- Loading V0..VX leaves the registers above them alone. -/
theorem State.getV_loadInto_above (s : State) {x r : RegIx} {bs : List Byte} (hlen : bs.length = regCount x)
    (hr : x < r) : (s.setRegs (loadInto 0 bs s.v)).getV r = s.getV r := by
  have hnone : bs[r.val]? = none := List.getElem?_eq_none (by simp [hlen, regCount]; omega)
  simp [State.getV, Vector.get_eq_getElem, loadInto_getElem, hnone]

/-! ### The effect of an update: its frame, and the invariant kept -/

/-- `t` differs from `s` in nothing but the status output and what `w` names, and the invariant is kept. -/
structure Effect (w : Writes) (s t : State) : Prop extends FrameOf w s t where
  inv : s.Inv → t.Inv

theorem Effect.refl (w : Writes) (s : State) : Effect w s s where
  regs _ _ := rfl
  i _ := rfl
  pc _ := rfl
  sp _ := rfl
  stack _ := rfl
  dt _ := rfl
  st _ := rfl
  fb _ := rfl
  mem _ _ := rfl
  run _ := rfl
  draws _ := rfl
  keys := rfl
  cfg := rfl
  inv h := h

namespace Effect

/-! Each update of a state that stands within `w` of `s`, where `w` allows what it writes. -/

section Updates
variable {w : Writes} {s t : State} (e : Effect w s t)
include e

theorem setStatus (c : Status) : Effect w s (t.setStatus c) := { e with }

theorem setI (a : Word) (hw : w.i = true) : Effect w s (t.setI a) :=
  { e with i := fun h => by simp [hw] at h }

theorem setPc (a : Word) (hw : w.pc = true) : Effect w s (t.setPc a) :=
  { e with pc := fun h => by simp [hw] at h }

theorem setDt (b : Byte) (hw : w.dt = true) : Effect w s (t.setDt b) :=
  { e with dt := fun h => by simp [hw] at h }

theorem setSt (b : Byte) (hw : w.st = true) : Effect w s (t.setSt b) :=
  { e with st := fun h => by simp [hw] at h }

theorem setFb (g : Framebuffer) (hw : w.fb = true) : Effect w s (t.setFb g) :=
  { e with fb := fun h => by simp [hw] at h }

theorem setRun (r : RunState) (hw : w.run = true) : Effect w s (t.setRun r) :=
  { e with run := fun h => by simp [hw] at h }

theorem countDraw (hw : w.draws = true) : Effect w s t.countDraw :=
  { e with draws := fun h => by simp [hw] at h }

theorem setRegs (v : Vector Byte 16) (hw : ∀ r, r ∉ w.regs → (t.setRegs v).getV r = t.getV r) :
    Effect w s (t.setRegs v) :=
  { e with regs := fun r hr => (hw r hr).trans (e.regs r hr) }

theorem setV (r : RegIx) (b : Byte) (hw : r ∈ w.regs) : Effect w s (t.setV r b) :=
  e.setRegs (t.v.set r b) fun _ hq => t.getV_setV_ne (ne_of_mem_of_not_mem hw hq) b

theorem skipIf (c : Bool) (hw : w.pc = true) : Effect w s (t.skipIf c) :=
  t.skipIf_eq c ▸ e.setPc _ hw

theorem countRecheck (hw : w.draws = true) : Effect w s t.countRecheck := by
  unfold State.countRecheck
  split
  · exact e.countDraw hw
  · exact e

theorem writeResultThenFlag (x : RegIx) (r : Byte) (f : Bool) (hw : w.regs = [x, VF]) :
    Effect w s (t.writeResultThenFlag x r f) :=
  (e.setV x r (by simp [hw])).setV VF (flagByte f) (by simp [hw])

theorem writeResultAndFlag (x : RegIx) (r : Byte) (f : Bool) (hw : w.regs = [x, VF]) :
    Effect w s (t.writeResultAndFlag x r f) := by
  unfold State.writeResultAndFlag
  split
  · exact (e.setV VF (flagByte f) (by simp [hw])).setV x r (by simp [hw])
  · exact e.writeResultThenFlag x r f hw

theorem writeBytes (base : Nat) (bs : List Byte) (hw : addrRange base bs.length ⊆ w.mem)
    (hb : base + bs.length ≤ memSize) : Effect w s (t.writeBytes base bs) := by
  have hread : ∀ a, a ∉ w.mem → (t.writeBytes base bs).readByte a = s.readByte a := fun a ha => by
    have hout : a < base ∨ base + bs.length ≤ a := by
      by_contra hin
      exact ha (hw (mem_addrRange.mpr (by omega)))
    exact (t.readByte_writeBytes_outside base bs hout).trans (e.mem a ha)
  have hinv : s.Inv → (t.writeBytes base bs).Inv := fun hs => by
    obtain ⟨hcfg, hmem, hlen, hle⟩ := e.inv hs
    have hwf := t.writeBytes_wf base bs hb hmem
    exact ⟨by simpa using hcfg, by simpa using hwf, by simpa using hlen, by simpa using hle⟩
  rw [State.writeBytes_eq] at hread hinv ⊢
  exact { e with mem := hread, inv := hinv }

theorem push {a : Word} {u : State} (h : t.push a = some u) (hw : w.stack = true) : Effect w s u := by
  have hinv : s.Inv → u.Inv := fun hs => State.push_inv (e.inv hs) h
  obtain ⟨-, rfl⟩ := State.push_eq_some.mp h
  exact { e with sp := fun h => by simp [hw] at h, stack := fun h => by simp [hw] at h, inv := hinv }

theorem pop {a : Word} {u : State} (h : t.pop = some (a, u)) (hw : w.stack = true) : Effect w s u := by
  obtain ⟨-, -, rfl⟩ := State.pop_eq_some.mp h
  exact { e with
    sp := fun h => by simp [hw] at h
    inv := fun hs =>
      have ⟨hcfg, hmem, hlen, hle⟩ := e.inv hs
      ⟨hcfg, hmem, hlen, (Nat.sub_le _ _).trans hle⟩ }

/-- An instruction that completes changes the status output last (R281). -/
theorem of_complete {u : State} (h : complete t = .next u) : Effect w s u :=
  complete_next.mp h ▸ e.setStatus .ok

end Updates
end Effect

/-! ### What each instruction may change -/

/-- What an instruction run in state `s` may change when it answers a next state. CALL, RET and LD Vx, K change
different things by the state they run in (R150, R153, R255). -/
def execWrites (i : Instr) (s : State) : Writes :=
  match i with
  | .cls => { fb := true }
  | .ret => { pc := decide (s.sp ≠ 0), stack := decide (s.sp ≠ 0), run := decide (s.sp = 0) }
  | .sys _ => {}
  | .jp _ => { pc := true }
  | .call _ => { pc := true, stack := decide (s.sp ≠ s.cfg.stackDepth) }
  | .seImm _ _ => { pc := true }
  | .sneImm _ _ => { pc := true }
  | .seReg _ _ _ => { pc := true }
  | .ldImm x _ => { regs := [x] }
  | .addImm x _ => { regs := [x] }
  | .ldReg x _ => { regs := [x] }
  | .orReg x _ => { regs := [x, VF] }
  | .andReg x _ => { regs := [x, VF] }
  | .xorReg x _ => { regs := [x, VF] }
  | .addReg x _ => { regs := [x, VF] }
  | .subReg x _ => { regs := [x, VF] }
  | .shrReg x _ => { regs := [x, VF] }
  | .subnReg x _ => { regs := [x, VF] }
  | .shlReg x _ => { regs := [x, VF] }
  | .sneReg _ _ _ => { pc := true }
  | .ldI _ => { i := true }
  | .jpV0 _ => { pc := true }
  | .rnd x _ => { regs := [x], draws := true }
  | .drw _ _ _ => { regs := [VF], fb := true }
  | .skp _ => { pc := true }
  | .sknp _ => { pc := true }
  | .ldVxDt x => { regs := [x] }
  | .ldVxK x => { regs := if anyKey s.keys then [x] else [], pc := true, draws := anyKey s.keys }
  | .ldDtVx _ => { dt := true }
  | .ldStVx _ => { st := true }
  | .addI _ => { i := true }
  | .ldF _ => { i := true }
  | .ldB _ => { mem := addrRange s.indexAddr 3 }
  | .storeRegs x => { i := true, mem := addrRange s.indexAddr (regCount x) }
  | .loadRegs x => { regs := regsUpTo x, i := true }

theorem execRet_effect {s t : State} (h : execRet s = .next t) : Effect (execWrites .ret s) s t := by
  unfold execRet at h
  rcases s.pop_cases with ⟨hsp, hp⟩ | ⟨hsp, hp⟩
  · obtain rfl : s.endRun .stackUnderflow .fatalStackUnderflow = t := by simpa [hp] using h
    exact ((Effect.refl _ s).setRun _ (by simp [execWrites, hsp])).setStatus _
  · rw [hp] at h
    exact (((Effect.refl _ s).pop hp (by simp [execWrites, hsp])).setPc _ (by simp [execWrites, hsp])).of_complete h

theorem execCall_effect {nnn : Addr} {s t : State} (h : execCall nnn s = .next t) :
    Effect (execWrites (.call nnn) s) s t := by
  unfold execCall at h
  rcases s.push_cases s.pc with ⟨hsp, hp⟩ | ⟨hsp, hp⟩
  · obtain rfl : s.rollBack.setStatus .stackOverflowStall = t := by simpa [hp] using h
    exact ((Effect.refl _ s).setPc _ (by simp [execWrites, hsp])).setStatus _
  · rw [hp] at h
    exact (((Effect.refl _ s).push hp (by simp [execWrites, hsp])).setPc _ (by simp [execWrites, hsp])).of_complete h

theorem execDrw_effect {x y : RegIx} {n : Nibble} {s t : State} (h : execDrw x y n s = .next t) :
    Effect (execWrites (.drw x y n) s) s t := by
  obtain ⟨-, h⟩ := checked_next.mp h
  exact (((Effect.refl _ s).setFb _ rfl).setV VF _ List.mem_cons_self).of_complete h

/-- A key skip that completes has read a key, and may change PC alone (R250-R252). -/
theorem execSkp_effect {x : RegIx} {s t : State} (h : execSkp x s = .next t) :
    Effect (execWrites (.skp x) s) s t := by
  unfold execSkp at h
  split at h
  · cases h
  · exact ((Effect.refl _ s).skipIf _ rfl).of_complete h

theorem execSknp_effect {x : RegIx} {s t : State} (h : execSknp x s = .next t) :
    Effect (execWrites (.sknp x) s) s t := by
  unfold execSknp at h
  split at h
  · cases h
  · exact ((Effect.refl _ s).skipIf _ rfl).of_complete h

theorem execLdVxK_effect {x : RegIx} {s t : State} (h : execLdVxK x s = .next t) :
    Effect (execWrites (.ldVxK x) s) s t := by
  unfold execLdVxK at h
  split at h
  next hkey => exact ((Effect.refl _ s).setPc _ (by simp [execWrites, anyKey, hkey])).of_complete h
  next k hkey =>
    rw [keyFound_eq] at h
    have hw : execWrites (.ldVxK x) s = { regs := [x], pc := true, draws := true } := by
      simp [execWrites, anyKey, hkey]
    rw [hw]
    exact ((((Effect.refl _ s).setV x _ List.mem_cons_self).setPc _ rfl).countRecheck rfl).of_complete h

theorem execLdB_effect {x : RegIx} {s t : State} (h : execLdB x s = .next t) :
    Effect (execWrites (.ldB x) s) s t := by
  obtain ⟨hrange, h⟩ := checked_next.mp h
  exact ((Effect.refl _ s).writeBytes s.indexAddr (bcdDigits (s.getV x)) (List.Subset.refl _)
    (hrange.resolve_left (by decide))).of_complete h

theorem execStoreRegs_effect {x : RegIx} {s t : State} (h : execStoreRegs x s = .next t) :
    Effect (execWrites (.storeRegs x) s) s t := by
  obtain ⟨hrange, h⟩ := checked_next.mp h
  have hlen : (s.leadingRegs x).length = regCount x := s.length_leadingRegs x
  exact (((Effect.refl _ s).writeBytes s.indexAddr (s.leadingRegs x) (by rw [hlen]; exact List.Subset.refl _)
    (hlen.symm ▸ hrange.resolve_left (Nat.succ_ne_zero _))).setI _ rfl).of_complete h

theorem execLoadRegs_effect {x : RegIx} {s t : State} (h : execLoadRegs x s = .next t) :
    Effect (execWrites (.loadRegs x) s) s t := by
  obtain ⟨-, h⟩ := checked_next.mp h
  refine (((Effect.refl _ s).setRegs _ fun r hr => ?_).setI _ rfl).of_complete h
  exact s.getV_loadInto_above (s.length_readBytes _ _) (not_le.mp fun hle => hr (mem_regsUpTo.mpr hle))

/-- Every instruction stays within what it may change and keeps the invariant. -/
theorem exec_effect {i : Instr} {s t : State} (h : exec i s = .next t) : Effect (execWrites i s) s t := by
  have e := Effect.refl (execWrites i s) s
  cases i with
  | cls => exact (e.setFb _ rfl).of_complete h
  | ret => exact execRet_effect h
  | sys nnn =>
    obtain rfl : reportUnimplemented (addrWord nnn) s = t := by simpa [exec, execSys] using h
    exact e.setStatus _
  | jp _ => exact (e.setPc _ rfl).of_complete h
  | call _ => exact execCall_effect h
  | seImm _ _ => exact (e.skipIf _ rfl).of_complete h
  | sneImm _ _ => exact (e.skipIf _ rfl).of_complete h
  | seReg _ _ _ => exact (e.skipIf _ rfl).of_complete h
  | ldImm x _ => exact (e.setV x _ List.mem_cons_self).of_complete h
  | addImm x _ => exact (e.setV x _ List.mem_cons_self).of_complete h
  | ldReg x _ => exact (e.setV x _ List.mem_cons_self).of_complete h
  | orReg x _ => exact (e.writeResultThenFlag x _ _ rfl).of_complete h
  | andReg x _ => exact (e.writeResultThenFlag x _ _ rfl).of_complete h
  | xorReg x _ => exact (e.writeResultThenFlag x _ _ rfl).of_complete h
  | addReg x _ => exact (e.writeResultAndFlag x _ _ rfl).of_complete h
  | subReg x _ => exact (e.writeResultAndFlag x _ _ rfl).of_complete h
  | shrReg x _ => exact (e.writeResultThenFlag x _ _ rfl).of_complete h
  | subnReg x _ => exact (e.writeResultAndFlag x _ _ rfl).of_complete h
  | shlReg x _ => exact (e.writeResultThenFlag x _ _ rfl).of_complete h
  | sneReg _ _ _ => exact (e.skipIf _ rfl).of_complete h
  | ldI _ => exact (e.setI _ rfl).of_complete h
  | jpV0 _ => exact (e.setPc _ rfl).of_complete h
  | rnd x _ => exact ((e.setV x _ List.mem_cons_self).countDraw rfl).of_complete h
  | drw _ _ _ => exact execDrw_effect h
  | skp _ => exact execSkp_effect h
  | sknp _ => exact execSknp_effect h
  | ldVxDt x => exact (e.setV x _ List.mem_cons_self).of_complete h
  | ldVxK _ => exact execLdVxK_effect h
  | ldDtVx _ => exact (e.setDt _ rfl).of_complete h
  | ldStVx _ => exact (e.setSt _ rfl).of_complete h
  | addI _ => exact (e.setI _ rfl).of_complete h
  | ldF _ => exact (e.setI _ rfl).of_complete h
  | ldB _ => exact execLdB_effect h
  | storeRegs _ => exact execStoreRegs_effect h
  | loadRegs _ => exact execLoadRegs_effect h
theorem exec_frame {i : Instr} {s t : State} (h : exec i s = .next t) : FrameOf (execWrites i s) s t :=
  (exec_effect h).toFrameOf

/-! ### What a step may change -/

/-- What a step that answers `t` has done: reported an ended run, taken a fault, reported a word that decodes to no
instruction, or run one to its end (R119). -/
theorem step_next_cases {s t : State} (h : step s = .next t) :
    t = reportNotRunning s ∨ (∃ f, t = takeFault f s) ∨ (∃ w, t = reportUnimplemented w (advance s)) ∨
      ∃ i, exec i (advance s) = .next t := by
  rcases step_cases s with ⟨_, _, hs⟩ | ⟨_, f, _, hs⟩ | ⟨_, w, _, _, _, hs⟩ | ⟨_, _, i, _, _, hs⟩
  · exact .inl (Host.Outcome.next.inj (h.symm.trans hs))
  · exact .inr (.inl ⟨f, Host.Outcome.next.inj (h.symm.trans hs)⟩)
  · exact .inr (.inr (.inl ⟨w, Host.Outcome.next.inj (h.symm.trans hs)⟩))
  · rcases settle_cases s (exec i (advance s)) with ⟨u, hi, hu⟩ | ⟨f, _, hu⟩ | ⟨_, _, hu⟩
    · have htu : t = u := Host.Outcome.next.inj (h.symm.trans (hs.trans hu))
      exact .inr (.inr (.inr ⟨i, htu ▸ hi⟩))
    · exact .inr (.inl ⟨f, Host.Outcome.next.inj (h.symm.trans (hs.trans hu))⟩)
    · cases h.symm.trans (hs.trans hu)

theorem step_inv {s t : State} (hs : s.Inv) (h : step s = .next t) : t.Inv := by
  rcases step_next_cases h with rfl | ⟨f, rfl⟩ | ⟨w, rfl⟩ | ⟨i, hi⟩
  · exact hs
  · exact hs
  · exact hs
  · exact (exec_effect hi).inv hs

theorem step_keys_cfg {s t : State} (h : step s = .next t) : t.keys = s.keys ∧ t.cfg = s.cfg := by
  rcases step_next_cases h with rfl | ⟨f, rfl⟩ | ⟨w, rfl⟩ | ⟨i, hi⟩
  · exact ⟨rfl, rfl⟩
  · exact ⟨rfl, rfl⟩
  · exact ⟨rfl, rfl⟩
  · exact ⟨(exec_effect hi).keys, (exec_effect hi).cfg⟩

/-- Settles O15: every update a step is made of keeps the invariant (`exec_effect`). -/
theorem stepKeepsInvariant : Obligations.StepKeepsInvariant := fun _ _ => step_inv

/-- Settles O18: neither the key-state nor the configuration is among what a step may change. -/
theorem stepNeverWritesKeys : Obligations.StepNeverWritesKeys := fun _ _ => step_keys_cfg

/-! ### An ended run (R117) -/

theorem step_of_ended {s : State} {r : EndReason} (h : s.run = .ended r) : step s = .next (reportNotRunning s) := by
  simp only [step, h]

theorem runSteps_succ {s t : State} (n : Nat) (h : step s = .next t) : runSteps (n + 1) s = runSteps n t := by
  simp only [runSteps, h]

/-- Settles O11, by induction on the number of steps: a second report overwrites the first. -/
theorem endedRunStaysEnded : Obligations.EndedRunStaysEnded := by
  intro n
  induction n with
  | zero => exact fun s r h => runSteps_succ 0 (step_of_ended h)
  | succ n ih => exact fun s r h => (runSteps_succ (n + 1) (step_of_ended h)).trans (ih (reportNotRunning s) r h)

/-! ### What one instruction alone may change -/

theorem execRet_stack {s t : State} (h : execRet s = .next t) : t.stack = s.stack := by
  unfold execRet at h
  rcases s.pop_cases with ⟨-, hp⟩ | ⟨-, hp⟩ <;> rw [hp] at h
  · exact (Host.Outcome.next.inj h) ▸ rfl
  · exact (complete_next.mp h) ▸ rfl

theorem execRet_empty {s t : State} (hsp : s.sp = 0) (h : execRet s = .next t) :
    t = s.endRun .stackUnderflow .fatalStackUnderflow := by
  simpa [execRet, State.pop, hsp, eq_comm] using h

theorem execWrites_stack {i : Instr} {s : State} (h : (execWrites i s).stack = true) :
    i = .ret ∨ ∃ nnn, i = .call nnn := by
  cases i
  case ret => exact .inl rfl
  case call nnn => exact .inr ⟨nnn, rfl⟩
  all_goals exact absurd h Bool.false_ne_true

theorem execWrites_fb {i : Instr} {s : State} (h : (execWrites i s).fb = true) :
    i = .cls ∨ ∃ x y n, i = .drw x y n := by
  cases i
  case cls => exact .inl rfl
  case drw x y n => exact .inr ⟨x, y, n, rfl⟩
  all_goals exact absurd h Bool.false_ne_true

theorem execWrites_dt {i : Instr} {s : State} (h : (execWrites i s).dt = true) : ∃ x, i = .ldDtVx x := by
  cases i
  case ldDtVx x => exact ⟨x, rfl⟩
  all_goals exact absurd h Bool.false_ne_true

theorem execWrites_st {i : Instr} {s : State} (h : (execWrites i s).st = true) : ∃ x, i = .ldStVx x := by
  cases i
  case ldStVx x => exact ⟨x, rfl⟩
  all_goals exact absurd h Bool.false_ne_true

theorem execWrites_run {i : Instr} {s : State} (h : (execWrites i s).run = true) : i = .ret ∧ s.sp = 0 := by
  cases i
  case ret => exact ⟨rfl, of_decide_eq_true h⟩
  all_goals exact absurd h Bool.false_ne_true

/-- VF is among the registers an instruction may write only where R22 lists it or it names VF as its destination. -/
theorem execWrites_vf {i : Instr} {s : State} (h : VF ∈ (execWrites i s).regs) : writesVF i = true := by
  cases i
  case ldImm | addImm | ldReg | rnd | ldVxDt => exact beq_iff_eq.mpr (List.mem_singleton.mp h).symm
  case ldVxK x =>
    have hx : VF = x := by
      simp only [execWrites] at h
      split at h
      · exact List.mem_singleton.mp h
      · cases h
    exact beq_iff_eq.mpr hx.symm
  case loadRegs x => exact beq_iff_eq.mpr (le_antisymm (Fin.le_last x) (mem_regsUpTo.mp h))
  case orReg | andReg | xorReg | addReg | subReg | subnReg | shrReg | shlReg | drw => rfl
  all_goals exact absurd h List.not_mem_nil

/-- Settles O19: only CALL and RET may write the stack, and RET leaves its entries. -/
theorem onlyCallAndRetMoveStack : Obligations.OnlyCallAndRetMoveStack := by
  intro i s t h
  have hframe := exec_frame h
  refine ⟨fun hne => ?_, fun hne => ?_⟩
  · exact execWrites_stack (eq_true_of_ne_false <| mt hframe.sp hne)
  · rcases execWrites_stack (eq_true_of_ne_false <| mt hframe.stack hne) with rfl | hcall
    · exact absurd (execRet_stack h) hne
    · exact hcall

/-- Settles O20: the framebuffer is among the writes of CLS and DRW alone. -/
theorem onlyClsAndDrwChangeFramebuffer : Obligations.OnlyClsAndDrwChangeFramebuffer :=
  fun _ _ _ h hne => execWrites_fb (eq_true_of_ne_false <| mt (exec_frame h).fb hne)

/-- Settles O22: each timer is among the writes of its own load alone. -/
theorem timersWrittenOnlyByLoads : Obligations.TimersWrittenOnlyByLoads := fun _ _ _ h =>
  ⟨fun hne => execWrites_dt (eq_true_of_ne_false <| mt (exec_frame h).dt hne),
    fun hne => execWrites_st (eq_true_of_ne_false <| mt (exec_frame h).st hne)⟩

/-- Settles O23: a register outside an instruction's writes keeps its value. -/
theorem vfWrittenOnlyAsListed : Obligations.VfWrittenOnlyAsListed := fun _ _ _ h hne =>
  execWrites_vf (by_contra fun hvf => hne ((exec_frame h).regs VF hvf))

/-- Settles O24: the run state is among the writes of RET on an empty stack alone. -/
theorem onlyEmptyRetEndsRun : Obligations.OnlyEmptyRetEndsRun := by
  intro i s t h hne
  obtain ⟨rfl, hsp⟩ := execWrites_run (eq_true_of_ne_false <| mt (exec_frame h).run hne)
  exact ⟨rfl, hsp, congrArg State.run (execRet_empty hsp h)⟩

/-! ### The stack is last-in first-out (R29, R30) -/

theorem pushAll_cons {a : Word} {as : List Word} {s s' : State} (h : s.push a = some s') :
    pushAll (a :: as) s = pushAll as s' := by
  simp only [pushAll, h]

/-- A list can be pushed exactly when it fits. -/
theorem pushAll_isSome {as : List Word} {s : State} (hs : s.Inv) :
    (pushAll as s).isSome = true ↔ s.sp + as.length ≤ s.cfg.stackDepth := by
  induction as generalizing s with
  | nil =>
    obtain ⟨-, -, -, hle⟩ := hs
    simpa [pushAll] using hle
  | cons a as ih =>
    rw [List.length_cons]
    rcases s.push_cases a with ⟨hfull, hp⟩ | ⟨hroom, hp⟩
    · simp [pushAll, hp, hfull]
    · rw [pushAll_cons hp, ih (State.push_inv hs hp)]
      change s.sp + 1 + as.length ≤ s.cfg.stackDepth ↔ _
      omega

/-- Pushing leaves the entries below SP alone. -/
theorem pushAll_stack_below {as : List Word} {s t : State} (h : pushAll as s = some t) {k : Nat} (hk : k < s.sp) :
    t.stack[k]? = s.stack[k]? := by
  induction as generalizing s with
  | nil => exact Option.some.inj h ▸ rfl
  | cons a as ih =>
    rcases s.push_cases a with ⟨_, hp⟩ | ⟨_, hp⟩
    · simp [pushAll, hp] at h
    · rw [pushAll_cons hp] at h
      exact (ih h (Nat.lt_succ_of_lt hk)).trans (List.getElem?_set_ne hk.ne')

theorem popMany_succ {n : Nat} {l : List Word} {s u : State} :
    popMany (n + 1) s = some (l, u) ↔
      ∃ a t as, s.pop = some (a, t) ∧ popMany n t = some (as, u) ∧ l = a :: as := by
  rw [popMany]
  rcases s.pop with _ | ⟨a, t⟩
  · simp
  · rcases hm : popMany n t with _ | ⟨as, v⟩ <;> simp [hm, eq_comm, and_comm]

/-- Popping once more answers one address more, the last. -/
theorem popMany_succ_last {n : Nat} {as : List Word} {a : Word} {s t u : State} (h : popMany n s = some (as, t))
    (hp : t.pop = some (a, u)) : popMany (n + 1) s = some (as ++ [a], u) := by
  induction n generalizing s as with
  | zero =>
    obtain ⟨rfl, rfl⟩ : [] = as ∧ s = t := by simpa [popMany] using h
    exact popMany_succ.mpr ⟨a, u, [], hp, rfl, rfl⟩
  | succ n ih =>
    obtain ⟨b, s', bs, hb, hbs, rfl⟩ := popMany_succ.mp h
    exact popMany_succ.mpr ⟨b, s', bs ++ [a], hb, ih hbs, rfl⟩

/-- Popping what has been pushed gives it back reversed, with nothing but SP moved. -/
theorem popMany_pushAll {as : List Word} {s t : State} (hs : s.Inv) (h : pushAll as s = some t) :
    popMany as.length t = some (as.reverse, { t with sp := s.sp }) := by
  induction as generalizing s with
  | nil => exact Option.some.inj h ▸ rfl
  | cons a as ih =>
    rcases s.push_cases a with ⟨_, hp⟩ | ⟨hroom, hp⟩
    · simp [pushAll, hp] at h
    · rw [pushAll_cons hp] at h
      have hlt : s.sp < s.stack.length := by
        obtain ⟨-, -, hlen, hle⟩ := hs
        omega
      have htop : t.stack[s.sp]? = some a :=
        (pushAll_stack_below h (Nat.lt_succ_self s.sp)).trans (List.getElem?_set_self hlt)
      rw [List.length_cons, List.reverse_cons]
      refine popMany_succ_last (ih (State.push_inv hs hp) h)
        (State.pop_eq_some.mpr ⟨Nat.succ_ne_zero s.sp, ?_, rfl⟩)
      change a = (t.stack[s.sp]?).getD 0
      rw [htop, Option.getD_some]

/-- Settles O31, by induction on the list. -/
theorem pushPopIsLifo : Obligations.PushPopIsLifo := fun _ _ hs =>
  ⟨pushAll_isSome hs, fun _ h => ⟨_, popMany_pushAll hs h, rfl⟩⟩

end Sys2Proof.Machine
end

section
/-! PROOFS. Memory (spec/20_memory.md): the canonical form is unique, a byte changes only at a write access, and what a
fetch reads after bytes have been stored. -/

namespace Sys2Proof.Machine

/-! ### The canonical form is unique (R50, R59) -/

section Canonical
variable {fontBase lo k : Nat} {v : Byte} {m : List Host.Cell}

theorem Memory.read_head : Memory.read fontBase ((k, v) :: m) k = v := if_pos rfl

/-- The cells after the first read as the whole memory does, but at the first cell's address. -/
theorem Memory.read_tail (hm : Memory.wfFrom fontBase (k + 1) m = true) (a : Nat) :
    Memory.read fontBase m a = if a = k then unlistedByte fontBase a else Memory.read fontBase ((k, v) :: m) a := by
  split
  next hak => exact Memory.read_below m (by omega) hm
  next hak => exact (if_neg hak).symm

/-- A canonical memory that reads as another does has its first cell at or above the other's first possible address. -/
theorem Memory.le_head_of_read_eq {lo' : Nat} {m' : List Host.Cell}
    (hm : Memory.wfFrom fontBase lo ((k, v) :: m) = true) (hm' : Memory.wfFrom fontBase lo' m' = true)
    (heq : ∀ a, Memory.read fontBase ((k, v) :: m) a = Memory.read fontBase m' a) : lo' ≤ k := by
  obtain ⟨-, -, hv, -⟩ := Memory.wfFrom_cons.mp hm
  by_contra hlt
  exact hv (Memory.read_head.symm.trans <| (heq k).trans <| Memory.read_below m' (not_le.mp hlt) hm')

theorem Memory.eq_nil_of_read_eq (hm : Memory.wfFrom fontBase lo m = true)
    (heq : ∀ a, Memory.read fontBase m a = Memory.read fontBase [] a) : m = [] := by
  cases m with
  | nil => rfl
  | cons c m => exact absurd (Memory.le_head_of_read_eq (lo' := c.1 + 1) hm rfl heq) (Nat.not_succ_le_self c.1)

end Canonical

theorem Memory.eq_of_read_eq {fontBase lo₁ lo₂ : Nat} {m₁ m₂ : List Host.Cell}
    (h₁ : Memory.wfFrom fontBase lo₁ m₁ = true) (h₂ : Memory.wfFrom fontBase lo₂ m₂ = true)
    (heq : ∀ a, Memory.read fontBase m₁ a = Memory.read fontBase m₂ a) : m₁ = m₂ := by
  induction m₁ generalizing lo₁ lo₂ m₂ with
  | nil => exact (Memory.eq_nil_of_read_eq h₂ fun a => (heq a).symm).symm
  | cons c₁ t₁ ih =>
    cases m₂ with
    | nil => exact Memory.eq_nil_of_read_eq h₁ heq
    | cons c₂ t₂ =>
      obtain ⟨k, v⟩ := c₁
      obtain ⟨k₂, v₂⟩ := c₂
      have hc₁ := (Memory.wfFrom_cons.mp h₁).2
      have hc₂ := (Memory.wfFrom_cons.mp h₂).2
      obtain rfl : k = k₂ := le_antisymm
        (Memory.le_head_of_read_eq h₂ (Memory.wfFrom_cons.mpr ⟨le_refl k, hc₁⟩) fun a => (heq a).symm)
        (Memory.le_head_of_read_eq h₁ (Memory.wfFrom_cons.mpr ⟨le_refl k₂, hc₂⟩) heq)
      obtain rfl : v = v₂ := Memory.read_head.symm.trans ((heq k).trans Memory.read_head)
      obtain ⟨-, -, ht₁⟩ := hc₁
      obtain ⟨-, -, ht₂⟩ := hc₂
      have htails : t₁ = t₂ := ih ht₁ ht₂ fun a => by
        rw [Memory.read_tail (v := v) ht₁, Memory.read_tail (v := v) ht₂, heq a]
      rw [htails]

/-- Settles O50, by induction on the cells: the first cells agree, and so do the reads of what follows them. -/
theorem canonicalMemoryIsUnique : Obligations.CanonicalMemoryIsUnique := fun _ _ _ => Memory.eq_of_read_eq

/-! ### A byte changes only at a write access (R51, R61) -/

/-- The addresses an instruction may change are those its accesses write. -/
theorem execWrites_mem {i : Instr} {s : State} {a : Nat} (h : a ∈ (execWrites i s).mem) :
    MemAccess.write a ∈ dataAccesses i s := by
  cases i
  case ldB | storeRegs => exact List.mem_map_of_mem h
  all_goals exact absurd h List.not_mem_nil

/-- Settles O21: a byte outside an instruction's writes keeps its value. -/
theorem memoryChangesOnlyAtWrites : Obligations.MemoryChangesOnlyAtWrites := fun _ _ _ a h hne =>
  execWrites_mem (by_contra fun ha => hne ((exec_frame h).mem a ha))

/-! ### The fetch after a run of bytes has been stored (R57, R65) -/

theorem fetch_in {s : State} (h : s.pc.toNat + 1 < memSize) :
    fetch s = .ok (s.readByte s.pc.toNat ++ s.readByte (s.pc.toNat + 1)) := if_pos h

@[simp] theorem fetch_setI (s : State) (a : Word) : fetch (s.setI a) = fetch s := rfl
@[simp] theorem fetch_setRun (s : State) (r : RunState) : fetch (s.setRun r) = fetch s := rfl
@[simp] theorem fetch_setStatus (s : State) (c : Status) : fetch (s.setStatus c) = fetch s := rfl

section Store
variable {s : State} {base : Nat} {bs : List Byte} (hwf : Memory.wf s.cfg.fontBase s.mem = true)
include hwf

theorem State.readByte_writeBytes_overlaid (hb : base + bs.length ≤ memSize) (p : Nat) :
    (s.writeBytes base bs).readByte p = overlaid s base bs p := s.readByte_writeBytes base bs p hb hwf

/-- The fetch after a store reads, at each of its two addresses, the byte stored there or else the one that was there. -/
theorem fetch_writeBytes (hb : base + bs.length ≤ memSize) (hpc : s.pc.toNat + 1 < memSize) :
    fetch (s.writeBytes base bs) =
      .ok (overlaid s base bs s.pc.toNat ++ overlaid s base bs (s.pc.toNat + 1)) := by
  rw [fetch_in (by simpa using hpc), State.writeBytes_pc, State.readByte_writeBytes_overlaid hwf hb,
    State.readByte_writeBytes_overlaid hwf hb]

end Store

theorem execStoreRegs_next {x : RegIx} {s t : State} :
    execStoreRegs x s = .next t ↔ s.indexAddr + (s.leadingRegs x).length ≤ memSize ∧
      t = ((s.writeBytes s.indexAddr (s.leadingRegs x)).setI (s.indexPastRegs x)).setStatus .ok := by
  rw [execStoreRegs, checked_next, complete_next, s.length_leadingRegs, regCount]
  simp

theorem execLdB_next {x : RegIx} {s t : State} :
    execLdB x s = .next t ↔ s.indexAddr + (bcdDigits (s.getV x)).length ≤ memSize ∧
      t = (s.writeBytes s.indexAddr (bcdDigits (s.getV x))).setStatus .ok := by
  rw [execLdB, checked_next, complete_next]
  simp [bcdDigits]

/-- Settles O49: both instructions store one run of bytes, and nothing else they write is read by the fetch. -/
theorem storedCodeIsFetched : Obligations.StoredCodeIsFetched := by
  intro x s t hwf hpc
  refine ⟨fun h => ?_, fun h => ?_⟩
  · obtain ⟨hb, rfl⟩ := execStoreRegs_next.mp h
    rw [fetch_setStatus, fetch_setI]
    exact fetch_writeBytes hwf hb hpc
  · obtain ⟨hb, rfl⟩ := execLdB_next.mp h
    rw [fetch_setStatus]
    exact fetch_writeBytes hwf hb hpc

/-! ### The word placed for a step (R57, R111) -/

theorem tableWord_full (w : Nat) : tableWord 16 w = BitVec.ofNat 16 w :=
  BitVec.eq_of_toNat_eq (Nat.mod_mod w (2 ^ 16))

theorem programBase_fetchable : (BitVec.ofNat 16 programBase).toNat + 1 < memSize := by decide

theorem placeWord_in {s : State} (w : Word) (h : s.pc.toNat + 1 < memSize) :
    placeWord s w = (s.writeBytes s.pc.toNat (wordBytes w)).setRun .running := by
  simp only [placeWord, if_pos h]

theorem placeWord_out {s : State} (w : Word) (h : memSize ≤ s.pc.toNat + 1) :
    placeWord s w = placeWord (s.setPc (BitVec.ofNat 16 programBase)) w := by
  rw [placeWord_in (s := s.setPc (BitVec.ofNat 16 programBase)) w programBase_fetchable]
  simp only [placeWord, if_neg (not_lt.mpr h)]

/-- Where PC can be fetched from, placing a word changes the two bytes there and the run state. -/
theorem Effect.placeWord {ws : Writes} {s t : State} (e : Effect ws s t) (w : Word) (hpc : t.pc.toNat + 1 < memSize)
    (hmem : ws.mem = [t.pc.toNat, t.pc.toNat + 1]) (hrun : ws.run = true) : Effect ws s (placeWord t w) := by
  rw [placeWord_in w hpc]
  exact (e.writeBytes t.pc.toNat (wordBytes w) (hmem ▸ List.Subset.refl _) hpc).setRun .running hrun

theorem fetch_placeWord_in {s : State} (w : Word) (hwf : Memory.wf s.cfg.fontBase s.mem = true)
    (hpc : s.pc.toNat + 1 < memSize) : fetch (placeWord s w) = .ok w := by
  rw [placeWord_in w hpc, fetch_setRun, fetch_writeBytes hwf hpc hpc]
  simp [overlaid, wordBytes, wordBytes_join]

/-- Wherever PC is, the word placed is the word fetched. -/
theorem fetch_placeWord {s : State} (w : Word) (hwf : Memory.wf s.cfg.fontBase s.mem = true) :
    fetch (placeWord s w) = .ok w := by
  rcases Nat.lt_or_ge (s.pc.toNat + 1) memSize with hpc | hpc
  · exact fetch_placeWord_in w hwf hpc
  · rw [placeWord_out w hpc]
    exact fetch_placeWord_in w hwf programBase_fetchable

theorem placeWord_run (s : State) (w : Word) : (placeWord s w).run = .running := rfl

theorem placeWord_status (s : State) (w : Word) : (placeWord s w).status = s.status := by
  simp only [placeWord, State.setRun_status, State.writeBytes_status]
  split <;> rfl

theorem placeWord_out_pc {s : State} (w : Word) (hpc : memSize ≤ s.pc.toNat + 1) : (placeWord s w).pc = 0x200 := by
  rw [placeWord_out w hpc, placeWord_in w programBase_fetchable]
  simp [programBase]

/-- Settles O60: two bytes are stored where the fetch reads, after PC is put where it can be fetched from. -/
theorem placedWordIsFetched : Obligations.PlacedWordIsFetched := by
  intro w s hwf
  rw [State.withFetchWord, tableWord_full]
  refine ⟨fetch_placeWord _ hwf, placeWord_run s _, placeWord_status s _, fun hpc => ?_, fun hpc => ?_⟩
  · exact ((Effect.refl _ s).placeWord _ hpc rfl rfl).toFrameOf
  · refine ⟨placeWord_out_pc _ hpc, ?_⟩
    rw [placeWord_out _ hpc]
    exact (((Effect.refl _ s).setPc _ rfl).placeWord _ programBase_fetchable rfl rfl).toFrameOf

end Sys2Proof.Machine
end

section
/-! PROOFS. The encoding (spec/30_encoding.md): what each class decodes to, said once, and the statements on it. -/

namespace Sys2Proof

open Machine

/-! ### A word is its fields (R81) -/

theorem eq_layoutNNN_iff {w : Word} {c : Nibble} {nnn : Addr} :
    w = layoutNNN c nnn ↔ fieldC w = c ∧ fieldNNN w = nnn := by
  constructor
  · rintro rfl
    simp
  · rintro ⟨rfl, rfl⟩
    exact (layoutNNN_fields w).symm

theorem eq_layoutXKK_iff {w : Word} {c : Nibble} {x : RegIx} {kk : Byte} :
    w = layoutXKK c x kk ↔ fieldC w = c ∧ fieldX w = x ∧ fieldKK w = kk := by
  constructor
  · rintro rfl
    simp
  · rintro ⟨rfl, rfl, rfl⟩
    exact (layoutXKK_fields w).symm

theorem eq_layoutXYN_iff {w : Word} {c n : Nibble} {x y : RegIx} :
    w = layoutXYN c x y n ↔ fieldC w = c ∧ fieldX w = x ∧ fieldY w = y ∧ fieldN w = n := by
  constructor
  · rintro rfl
    simp
  · rintro ⟨rfl, rfl, rfl, rfl⟩
    exact (layoutXYN_fields w).symm

@[simp] theorem lowByte_fieldNNN (w : Word) : (fieldNNN w).lowByte = fieldKK w :=
  extract_extract w 0 12 0 8 (by omega)

theorem setWidth_eq_layoutXKK (b : Byte) : b.setWidth 16 = layoutXKK 0x0 0 b := by
  apply BitVec.eq_of_toNat_eq
  rw [layoutXKK, BitVec.toNat_append, BitVec.toNat_append]
  simp [regBits]
  omega

/-! ### Class 0 under CLASS0_MATCH (R87) -/

section Class0
variable {m : Class0Match} {w : Word}

/-- FullWord asks for `X = 0` besides the low byte; the two settings differ in nothing else. -/
theorem class0Is_iff {b : Byte} (hc : fieldC w = 0x0) :
    class0Is m w b = true ↔ (m = .fullWord → fieldX w = 0) ∧ fieldKK w = b := by
  cases m with
  | fullWord => simp [class0Is, setWidth_eq_layoutXKK, eq_layoutXKK_iff, hc]
  | lowByte => simp [class0Is]

theorem takes_fieldNNN (hc : fieldC w = 0x0) :
    m.takes (fieldNNN w) = (class0Is m w 0xE0 || class0Is m w 0xEE) := by
  cases m with
  | fullWord =>
    have hword (nnn : Addr) : fieldNNN w = nnn ↔ w = layoutNNN 0x0 nnn := by simp [eq_layoutNNN_iff, hc]
    rw [Bool.eq_iff_iff]
    simp only [Class0Match.takes, class0Is, Bool.or_eq_true, beq_iff_eq, hword]
    exact Iff.rfl
  | lowByte => simp [Class0Match.takes, class0Is]

theorem decodeClass0_fullWord : decodeClass0 .fullWord w =
    if w = 0x00E0 then .ok .cls else if w = 0x00EE then .ok .ret else .ok (.sys (fieldNNN w)) := by
  simp [decodeClass0, class0Is]

theorem decodeClass0_lowByte : decodeClass0 .lowByte w =
    if fieldKK w = 0xE0 then .ok .cls else if fieldKK w = 0xEE then .ok .ret else .ok (.sys (fieldNNN w)) := by
  simp [decodeClass0, class0Is]

theorem decodeClass0_ne_error {e : DecodeError} : decodeClass0 m w ≠ .error e := by
  unfold decodeClass0
  split_ifs <;> exact nofun

theorem decodeClass0_eq_sys_iff {nnn : Addr} (hc : fieldC w = 0x0) :
    decodeClass0 m w = .ok (.sys nnn) ↔ m.takes (fieldNNN w) = false ∧ fieldNNN w = nnn := by
  rw [takes_fieldNNN hc, decodeClass0]
  cases class0Is m w 0xE0 <;> cases class0Is m w 0xEE <;> simp

theorem decodeClass0_fullWord_sys_iff :
    (∃ nnn, decodeClass0 .fullWord w = .ok (.sys nnn)) ↔ w ≠ 0x00E0 ∧ w ≠ 0x00EE := by
  rw [decodeClass0_fullWord]
  split_ifs with hcls hret
  · simp [hcls]
  · simp [hret]
  · exact iff_of_true ⟨_, rfl⟩ ⟨hcls, hret⟩

/-- Where `X` is not 0, FullWord takes the word for SYS whatever its low byte. -/
theorem decodeClass0_settings_ne_iff (hc : fieldC w = 0x0) :
    decodeClass0 .fullWord w ≠ decodeClass0 .lowByte w ↔
      fieldX w ≠ 0 ∧ (fieldKK w = 0xE0 ∨ fieldKK w = 0xEE) := by
  by_cases hx : fieldX w = 0
  · simp [decodeClass0, class0Is_iff hc, hx]
  · have hfull : decodeClass0 .fullWord w = .ok (.sys (fieldNNN w)) := by simp [decodeClass0, class0Is_iff hc, hx]
    rw [hfull, decodeClass0_lowByte]
    split_ifs with hcls hret
    · simp [hx, hcls]
    · simp [hx, hret]
    · exact iff_of_false (fun h => h rfl) (fun h => h.2.elim hcls hret)

theorem encode_of_decodeClass0 {i : Instr} (hc : fieldC w = 0x0) (h : decodeClass0 .fullWord w = .ok i) :
    encode i = w := by
  rw [decodeClass0_fullWord] at h
  split_ifs at h with hcls hret <;> cases h
  · exact hcls.symm
  · exact hret.symm
  · exact (eq_layoutNNN_iff.mpr ⟨hc, rfl⟩).symm

end Class0

/-! ### Classes 8, E and F: the words they take, and those they do not (R84, R89) -/

section Subselected
variable {w : Word} {i : Instr}

theorem encode_of_decodeClass8 (hc : fieldC w = 0x8) (h : decodeClass8 w = .ok i) : encode i = w := by
  unfold decodeClass8 at h
  split at h <;> cases h
  all_goals exact (eq_layoutXYN_iff.mpr ⟨hc, rfl, rfl, BitVec.eq_of_toNat_eq ‹_›⟩).symm

theorem encode_of_decodeClassE (hc : fieldC w = 0xE) (h : decodeClassE w = .ok i) : encode i = w := by
  unfold decodeClassE at h
  split at h <;> cases h
  all_goals exact (eq_layoutXKK_iff.mpr ⟨hc, rfl, BitVec.eq_of_toNat_eq ‹_›⟩).symm

theorem encode_of_decodeClassF (hc : fieldC w = 0xF) (h : decodeClassF w = .ok i) : encode i = w := by
  unfold decodeClassF at h
  split at h <;> cases h
  all_goals exact (eq_layoutXKK_iff.mpr ⟨hc, rfl, BitVec.eq_of_toNat_eq ‹_›⟩).symm

theorem decodeClass8_eq_error_iff :
    decodeClass8 w = .error (.unimplemented w) ↔ fieldN w ∈ [0x8#4, 0x9, 0xA, 0xB, 0xC, 0xD, 0xF] := by
  have hlt := (fieldN w).isLt
  simp only [List.mem_cons, ← BitVec.toNat_inj]
  unfold decodeClass8
  split
  case h_10 =>
    simp only [imp_false] at *
    simp
    omega
  all_goals simp [*]

theorem decodeClassE_eq_error_iff :
    decodeClassE w = .error (.unimplemented w) ↔ fieldKK w ∉ [0x9E#8, 0xA1] := by
  simp only [List.mem_cons, ← BitVec.toNat_inj]
  unfold decodeClassE
  split <;> simp_all

theorem decodeClassF_eq_error_iff :
    decodeClassF w = .error (.unimplemented w) ↔
      fieldKK w ∉ [0x07#8, 0x0A, 0x15, 0x18, 0x1E, 0x29, 0x33, 0x55, 0x65] := by
  simp only [List.mem_cons, ← BitVec.toNat_inj]
  unfold decodeClassF
  split <;> simp_all

end Subselected

/-! ### The decoder routes on the class (R84, R91) -/

section Classes
variable {m : Class0Match} {w : Word} {i : Instr}

theorem decodeWord_class0 (hc : fieldC w = 0x0) : decodeWord m w = decodeClass0 m w := by simp [decodeWord, hc]

theorem decodeWord_class5 (hc : fieldC w = 0x5) :
    decodeWord m w = .ok (.seReg (fieldX w) (fieldY w) (fieldN w)) := by simp [decodeWord, hc]

theorem decodeWord_class8 (hc : fieldC w = 0x8) : decodeWord m w = decodeClass8 w := by simp [decodeWord, hc]

theorem decodeWord_class9 (hc : fieldC w = 0x9) :
    decodeWord m w = .ok (.sneReg (fieldX w) (fieldY w) (fieldN w)) := by simp [decodeWord, hc]

theorem decodeWord_classE (hc : fieldC w = 0xE) : decodeWord m w = decodeClassE w := by simp [decodeWord, hc]

theorem decodeWord_classF (hc : fieldC w = 0xF) : decodeWord m w = decodeClassF w := by simp [decodeWord, hc]

/-- A class of one instruction takes every word, and keeps every field of it. -/
theorem decodeWord_class_of_one (h0 : fieldC w ≠ 0x0) (h8 : fieldC w ≠ 0x8) (hE : fieldC w ≠ 0xE)
    (hF : fieldC w ≠ 0xF) : ∃ i, decodeWord m w = .ok i ∧ encode i = w := by
  unfold decodeWord
  split
  case h_1 h => exact absurd (BitVec.eq_of_toNat_eq h) h0
  case h_9 h => exact absurd (BitVec.eq_of_toNat_eq h) h8
  case h_15 h => exact absurd (BitVec.eq_of_toNat_eq h) hE
  case h_16 =>
    have hlt := (fieldC w).isLt
    refine absurd (BitVec.eq_of_toNat_eq (?_ : _ = 15)) hF
    simp only [imp_false] at *
    omega
  case h_2 h | h_3 h | h_11 h | h_12 h =>
    exact ⟨_, rfl, (eq_layoutNNN_iff.mpr ⟨BitVec.eq_of_toNat_eq h, rfl⟩).symm⟩
  case h_4 h | h_5 h | h_7 h | h_8 h | h_13 h =>
    exact ⟨_, rfl, (eq_layoutXKK_iff.mpr ⟨BitVec.eq_of_toNat_eq h, rfl, rfl⟩).symm⟩
  case h_6 h | h_10 h | h_14 h =>
    exact ⟨_, rfl, (eq_layoutXYN_iff.mpr ⟨BitVec.eq_of_toNat_eq h, rfl, rfl, rfl⟩).symm⟩

/-- CLASS0_MATCH is read in class 0 alone. -/
theorem decodeWord_setting (m m' : Class0Match) (hc : fieldC w ≠ 0x0) : decodeWord m w = decodeWord m' w := by
  unfold decodeWord
  split
  case h_1 h => exact absurd (BitVec.eq_of_toNat_eq h) hc
  all_goals rfl

theorem decodeWord_eq_error_iff {e : DecodeError} :
    decodeWord m w = .error e ↔
      (fieldC w = 0x8 ∧ decodeClass8 w = .error e) ∨ (fieldC w = 0xE ∧ decodeClassE w = .error e) ∨
        (fieldC w = 0xF ∧ decodeClassF w = .error e) := by
  by_cases h0 : fieldC w = 0x0
  · simp [decodeWord_class0 h0, decodeClass0_ne_error, h0]
  by_cases h8 : fieldC w = 0x8
  · simp [decodeWord_class8 h8, h8]
  by_cases hE : fieldC w = 0xE
  · simp [decodeWord_classE hE, hE]
  by_cases hF : fieldC w = 0xF
  · simp [decodeWord_classF hF, hF]
  obtain ⟨i, hi, -⟩ := decodeWord_class_of_one (m := m) h0 h8 hE hF
  rw [hi]
  exact iff_of_false nofun (fun h => by rcases h with ⟨h, -⟩ | ⟨h, -⟩ | ⟨h, -⟩ <;> contradiction)

/-- Outside class 0 encoding gives the word back under either setting. -/
theorem encode_of_decodeWord (h0 : fieldC w ≠ 0x0) (h : decodeWord m w = .ok i) : encode i = w := by
  by_cases h8 : fieldC w = 0x8
  · exact encode_of_decodeClass8 h8 (decodeWord_class8 h8 ▸ h)
  by_cases hE : fieldC w = 0xE
  · exact encode_of_decodeClassE hE (decodeWord_classE hE ▸ h)
  by_cases hF : fieldC w = 0xF
  · exact encode_of_decodeClassF hF (decodeWord_classF hF ▸ h)
  obtain ⟨j, hj, henc⟩ := decodeWord_class_of_one (m := m) h0 h8 hE hF
  obtain rfl : j = i := Except.ok.inj (hj.symm.trans h)
  exact henc

theorem encode_of_decodeWord_fullWord (h : decodeWord .fullWord w = .ok i) : encode i = w := by
  by_cases hc : fieldC w = 0x0
  · exact encode_of_decodeClass0 hc (decodeWord_class0 hc ▸ h)
  · exact encode_of_decodeWord hc h

/-- Only class 0 answers SYS: elsewhere the encoding of the answer is the word, and that of SYS has class 0. -/
theorem decodeWord_eq_sys_iff {nnn : Addr} :
    decodeWord m w = .ok (.sys nnn) ↔ fieldC w = 0x0 ∧ decodeClass0 m w = .ok (.sys nnn) := by
  by_cases hc : fieldC w = 0x0
  · simp [decodeWord_class0 hc, hc]
  · refine iff_of_false (fun h => hc ?_) (fun h => hc h.1)
    rw [← encode_of_decodeWord hc h]
    exact fieldC_layoutNNN 0x0 nnn

theorem decodeWord_fullWord_sys_iff :
    (∃ nnn, decodeWord .fullWord w = .ok (.sys nnn)) ↔ fieldC w = 0x0 ∧ w ≠ 0x00E0 ∧ w ≠ 0x00EE := by
  simp only [decodeWord_eq_sys_iff, exists_and_left, decodeClass0_fullWord_sys_iff]

/-! ### Decoding and well-formed instructions -/

theorem wellFormed_of_ne_sys (h : ∀ nnn, i ≠ .sys nnn) : i.wellFormed m = true := by
  cases i with
  | sys nnn => exact absurd rfl (h nnn)
  | _ => rfl

theorem wellFormed_of_decodeWord (h : decodeWord m w = .ok i) : i.wellFormed m = true := by
  by_cases hsys : ∃ nnn, i = .sys nnn
  · obtain ⟨nnn, rfl⟩ := hsys
    obtain ⟨hc, h0⟩ := decodeWord_eq_sys_iff.mp h
    obtain ⟨htakes, rfl⟩ := (decodeClass0_eq_sys_iff hc).mp h0
    simp [Instr.wellFormed, htakes]
  · exact wellFormed_of_ne_sys fun nnn hi => hsys ⟨nnn, hi⟩

/-- SYS is the one case in which well-formedness and the setting matter; in every other the fields of the layout are
those it was built from. -/
theorem decodeWord_encode (hwf : i.wellFormed m = true) : decodeWord m (encode i) = .ok i := by
  cases i with
  | cls => cases m <;> rfl
  | ret => cases m <;> rfl
  | sys nnn =>
    have hc : fieldC (layoutNNN 0x0 nnn) = 0x0 := fieldC_layoutNNN 0x0 nnn
    rw [encode, decodeWord_class0 hc, decodeClass0_eq_sys_iff hc, fieldNNN_layoutNNN]
    exact ⟨by simpa [Instr.wellFormed] using hwf, rfl⟩
  | _ => simp [encode, decodeWord, decodeClass8, decodeClassE, decodeClassF]

end Classes

/-! ### The statements -/

/-- Settles O1, by cases on the instruction (`decodeWord_encode`). -/
theorem decodeInvertsEncode : Obligations.DecodeInvertsEncode := fun _ _ => decodeWord_encode

/-- Settles O2, by cases on the class of the word. -/
theorem encodeInvertsDecode : Obligations.EncodeInvertsDecode :=
  ⟨fun _ _ _ => wellFormed_of_decodeWord, fun _ _ => encode_of_decodeWord_fullWord⟩

/-- Settles O4: class 0 gives the SYS words, and the classes routed further give the errors. -/
theorem unimplementedWordsExactly : Obligations.UnimplementedWordsExactly := by
  intro w
  rw [decodeWord_fullWord_sys_iff, decodeWord_eq_error_iff, decodeClass8_eq_error_iff, decodeClassE_eq_error_iff,
    decodeClassF_eq_error_iff]
  exact or_comm

/-- Settles O5: the setting is read in class 0 alone, where it decides whether `X` has to be 0. -/
theorem class0MatchSelects : Obligations.Class0MatchSelects := by
  refine ⟨rfl, fun w hc => ?_, fun _ _ => rfl, fun w => ?_⟩
  · rw [decodeWord_class0 hc, decodeWord_class0 hc]
    exact ⟨decodeClass0_fullWord, decodeClass0_lowByte⟩
  · by_cases hc : fieldC w = 0x0
    · rw [decodeWord_class0 hc, decodeWord_class0 hc, decodeClass0_settings_ne_iff hc, and_iff_right hc]
    · exact iff_of_false (fun h => h (decodeWord_setting _ _ hc)) (fun h => hc h.1)

/-- Settles O3: seven of the words are encodings, and the last has class 8 and `N = 8`. -/
theorem exampleWordsDecode : Obligations.ExampleWordsDecode :=
  ⟨decodeWord_encode (i := .cls) rfl, decodeWord_encode (i := .call 0x300) rfl,
    decodeWord_encode (i := .ldImm 10 5) rfl, decodeWord_encode (i := .subReg 1 2) rfl,
    decodeWord_encode (i := .drw 0 1 5) rfl, decodeWord_encode (i := .storeRegs 1) rfl,
    decodeWord_encode (i := .sknp 5) rfl, rfl⟩

/-- Settles O6: the class alone decides, and neither meaning reads the nibble. -/
theorem lowNibbleIgnored : Obligations.LowNibbleIgnored := fun _ _ _ _ =>
  ⟨fun hc => ⟨decodeWord_class5 hc, rfl⟩, fun hc => ⟨decodeWord_class9 hc, rfl⟩⟩

end Sys2Proof
end

section
/-! PROOFS. The step, case by case (spec/40_dispatch.md R119): what it answers in each of its cases, and that no
instruction's meaning is a refusal, so that every step answers a next state. -/

namespace Sys2Proof.Machine

/-! ### No instruction is refused -/

theorem complete_ne_refused (s : State) (e : Refusal) : complete s ≠ .refused e := nofun

theorem checked_ne_refused (base n : Nat) {k : Result} {e : Refusal} (hk : k ≠ .refused e) :
    checked base n k ≠ .refused e := by
  rcases checked_cases base n k with ⟨_, _, h⟩ | ⟨_, h⟩ <;> rw [h]
  · nofun
  · exact hk

/-- Every instruction completes, reports or faults (R114, R118): four check a range first, five branch on the stack or
the keys with no refusal in either branch, and the arms not named complete. -/
theorem exec_ne_refused (i : Instr) (s : State) (e : Refusal) : exec i s ≠ .refused e := by
  cases i with
  | sys nnn => nofun
  | drw _ _ _ | ldB _ | storeRegs _ | loadRegs _ => exact checked_ne_refused _ _ (complete_ne_refused _ e)
  | ret | call _ | skp _ | sknp _ | ldVxK _ =>
    simp only [exec, execRet, execCall, execSkp, execSknp, execLdVxK]
    split <;> nofun
  | _ => exact complete_ne_refused _ e

/-- Settles O12: three cases of a step answer a next state themselves, and in the fourth `settle` answers one unless the
instruction is refused, which none is (`exec_ne_refused`). -/
theorem everyStepAnswersNext : Obligations.EveryStepAnswersNext := by
  intro s
  rcases step_cases s with ⟨_, _, h⟩ | ⟨_, _, _, h⟩ | ⟨_, _, _, _, _, h⟩ | ⟨_, _, i, _, _, h⟩
  · exact ⟨_, h⟩
  · exact ⟨_, h⟩
  · exact ⟨_, h⟩
  · rcases settle_cases s (exec i (advance s)) with ⟨_, _, hnext⟩ | ⟨_, _, hfault⟩ | ⟨e, hrefused, _⟩
    · exact ⟨_, h.trans hnext⟩
    · exact ⟨_, h.trans hfault⟩
    · exact absurd hrefused (exec_ne_refused i _ e)

/-! ### What a running machine's step answers (R119) -/

section Running
variable {s : State} (hrun : s.run = .running)
include hrun

theorem step_of_fetch_error {f : Fault} (hf : fetch s = .error f) : step s = .next (takeFault f s) := by
  simp only [step, hrun, hf]

theorem step_of_decode_error {w : Word} {e : DecodeError} (hf : fetch s = .ok w)
    (hd : decodeWord s.cfg.class0Match w = .error e) : step s = .next (reportUnimplemented w (advance s)) := by
  simp only [step, hrun, hf, hd]

theorem step_of_decode_ok {w : Word} {i : Instr} (hf : fetch s = .ok w)
    (hd : decodeWord s.cfg.class0Match w = .ok i) : step s = settle s (exec i (advance s)) := by
  simp only [step, hrun, hf, hd]

end Running

theorem fetch_out {s : State} (h : memSize ≤ s.pc.toNat + 1) :
    fetch s = .error (.memOutOfRange (max s.pc.toNat memSize)) := if_neg (not_lt.mpr h)

/-- Two bytes decode as the word they form, the first byte in bits 15-8 (R57, R80). -/
theorem decode_two_bytes {m : Class0Match} {hi lo : Byte} {i : Instr} :
    decode m [hi, lo] = .ok (i, []) ↔ decodeWord m (hi ++ lo) = .ok i := by
  simp only [decode]
  cases decodeWord m (hi ++ lo) <;> simp

/-- At an instruction the step runs it after the advance (R112, R114). -/
theorem State.AtInstr.step_eq {s : State} {i : Instr} (h : s.AtInstr i) : step s = settle s (exec i (advance s)) := by
  obtain ⟨hrun, hpc, hdec⟩ := h
  exact step_of_decode_ok hrun (fetch_in hpc) (decode_two_bytes.mp hdec)

/-! ### The statements -/

/-- Settles O7: `settle` keeps a next state and takes a fault in the state of the start of the step. -/
theorem stepRunsDecodedInstruction : Obligations.StepRunsDecodedInstruction := fun s _ hat =>
  ⟨fun _ hnext => hat.step_eq.trans (congrArg (settle s) hnext),
    fun _ hfault => hat.step_eq.trans (congrArg (settle s) hfault)⟩

/-- Settles O8: the two sides of the bound on PC. -/
theorem fetchReadsOrFaults : Obligations.FetchReadsOrFaults := fun _ =>
  ⟨fetch_in, fun hpc hrun => step_of_fetch_error hrun (fetch_out hpc)⟩

/-- Settles O9: the report is made in the advanced state. -/
theorem unimplementedStepOnlyAdvances : Obligations.UnimplementedStepOnlyAdvances := fun _ _ _ hrun =>
  step_of_decode_error hrun

/-- Settles O10: the step of an ended run is the report alone (`step_of_ended`). -/
theorem endedStepReportsNotRunning : Obligations.EndedStepReportsNotRunning := fun _ _ => step_of_ended

/-- Settles O28: the word `0NNN` is the encoding of SYS NNN, and the report is the one thing written. -/
theorem sysTakesUnimplementedPath : Obligations.SysTakesUnimplementedPath := fun nnn _ =>
  ⟨_, rfl, congrArg Status.unimplemented (addrWord_eq_layout nnn), exec_frame (i := .sys nnn) rfl⟩

end Sys2Proof.Machine
end

section
/-! PROOFS. The display (spec/41_display.md): the pixels DRW draws on are those its set, unclipped bits lie on, what DRW
leaves in the framebuffer and in VF, said once, and the statements on CLS and DRW. -/

namespace Sys2Proof.Machine

/-! ### The pixels a DRW draws on (R131-R133) -/

theorem visible_iff {c : DrawClip} {vx vy col row : Nat} :
    visible c vx vy col row = true ↔ InClip c vx vy col row := by
  cases c <;> simp [visible, InClip]

/-- The pixels that DRW Vx, Vy, N in state `s` draws on. -/
def State.drwSpots (s : State) (x y : RegIx) (n : Nibble) : List Spot :=
  spriteSpots s.cfg.drawClip (s.getV x).toNat (s.getV y).toNat 0 (s.readBytes s.indexAddr n.toNat)

/-- Row `row` of the sprite is the byte at `I + row` (R132). -/
theorem State.getElem?_sprite {s : State} {n : Nibble} {row : Nat} {b : Byte} :
    (s.readBytes s.indexAddr n.toNat)[row]? = some b ↔ row < n.toNat ∧ b = s.readByte (s.i.toNat + row) := by
  by_cases hrow : row < n.toNat
  · rw [s.getElem?_readBytes _ _ _ hrow]
    simp [hrow, State.indexAddr, eq_comm]
  · rw [List.getElem?_eq_none (by rw [s.length_readBytes]; omega)]
    simp [hrow]

theorem State.mem_drwSpots {s : State} {x y : RegIx} {n : Nibble} {px : Fin 64} {py : Fin 32} :
    (px, py) ∈ s.drwSpots x y n ↔ SpriteTouches s x y n px py := by
  simp only [State.drwSpots, mem_spriteSpots, mem_rowSpots, State.getElem?_sprite, visible_iff, Nat.zero_add,
    pixelColumn, pixelRow, Fin.ext_iff, Fin.val_ofNat, spriteBit]
  constructor
  · rintro ⟨row, _, ⟨hrow, rfl⟩, col, hcol, hbit, hclip, hx, hy⟩
    exact ⟨row, col, hrow, hcol, hbit, hclip, hx.symm, hy.symm⟩
  · rintro ⟨row, col, hrow, hcol, hbit, hclip, hx, hy⟩
    exact ⟨row, _, ⟨hrow, rfl⟩, col, hcol, hbit, hclip, hx.symm, hy.symm⟩

/-- The pixels touched depend on nothing but the operands, I, memory and the clip. -/
theorem spriteTouches_congr {s t : State} {x y : RegIx} (hx : t.getV x = s.getV x) (hy : t.getV y = s.getV y)
    (hi : t.i = s.i) (hmem : ∀ a, t.readByte a = s.readByte a) (hcfg : t.cfg = s.cfg) (n : Nibble) (px : Fin 64)
    (py : Fin 32) : SpriteTouches t x y n px py ↔ SpriteTouches s x y n px py := by
  simp only [SpriteTouches, hx, hy, hi, hmem, hcfg]

/-! ### The flag -/

theorem flagByte_eq_one {f : Bool} : flagByte f = 1 ↔ f = true := by
  cases f <;> decide

theorem flagByte_eq_zero {f : Bool} : flagByte f = 0 ↔ f = false := by
  cases f <;> decide

/-! ### What DRW does -/

/-- What DRW leaves when its range is in memory: the canvas drawn, and the collision in VF (R131). -/
def State.drwDone (s : State) (x y : RegIx) (n : Nibble) : State :=
  let k := drawSprite s.cfg.drawClip (s.getV x).toNat (s.getV y).toNat (s.readBytes s.indexAddr n.toNat) s.fb
  ((s.setFb k.fb).setFlag k.hit).setStatus .ok

section Draw
variable {x y : RegIx} {n : Nibble} {s t : State}

theorem exec_drw_in (h : n.toNat = 0 ∨ s.i.toNat + n.toNat ≤ memSize) :
    exec (.drw x y n) s = .next (s.drwDone x y n) := checked_in _ h

theorem exec_drw_out (hn : n.toNat ≠ 0) (h : memSize < s.i.toNat + n.toNat) :
    exec (.drw x y n) s = .fault (.memOutOfRange (max s.i.toNat memSize)) := checked_out _ hn h

theorem eq_drwDone (h : exec (.drw x y n) s = .next t) : t = s.drwDone x y n :=
  complete_next.mp (checked_next.mp h).2

/-- DRW flips exactly the pixels its sprite touches (R131). -/
theorem exec_drw_pixel (h : exec (.drw x y n) s = .next t) (px : Fin 64) (py : Fin 32) :
    pixel t.fb px py ≠ pixel s.fb px py ↔ SpriteTouches s x y n px py := by
  have hflip : pixel t.fb px py = (pixel s.fb px py != decide ((px, py) ∈ s.drwSpots x y n)) :=
    eq_drwDone h ▸ (drawSprite_spec _ _ _ _ s.fb px py).1
  rw [hflip, ← State.mem_drwSpots]
  cases pixel s.fb px py <;> simp

/-- VF is the flag of a collision: a touched pixel that was on (R134), whichever registers X and Y name. -/
theorem exec_drw_vf (h : exec (.drw x y n) s = .next t) :
    t.getV VF = flagByte ((s.drwSpots x y n).any fun p => pixel s.fb p.1 p.2) := by
  rw [eq_drwDone h]
  exact (State.getV_setV_same _ VF _).trans (congrArg flagByte (drawSprite_spec _ _ _ _ s.fb 0 0).2)

theorem exec_drw_vf_one (h : exec (.drw x y n) s = .next t) :
    t.getV VF = 1 ↔ ∃ px py, SpriteTouches s x y n px py ∧ pixel s.fb px py = true := by
  rw [exec_drw_vf h, flagByte_eq_one]
  simp [State.mem_drwSpots]

theorem exec_drw_vf_zero (h : exec (.drw x y n) s = .next t) :
    t.getV VF = 0 ↔ ∀ px py, SpriteTouches s x y n px py → pixel s.fb px py = false := by
  rw [exec_drw_vf h, flagByte_eq_zero]
  simp [State.mem_drwSpots]

/-- A second DRW with the same operands touches the same pixels. -/
theorem spriteTouches_after_drw (h : exec (.drw x y n) s = .next t) (hx : t.getV x = s.getV x)
    (hy : t.getV y = s.getV y) (px : Fin 64) (py : Fin 32) :
    SpriteTouches t x y n px py ↔ SpriteTouches s x y n px py :=
  have hframe := exec_frame h
  spriteTouches_congr hx hy (hframe.i rfl) (fun a => hframe.mem a List.not_mem_nil) hframe.cfg n px py

end Draw

/-! ### The statements -/

/-- Settles O25: the framebuffer CLS writes is all off, and it writes nothing else. -/
theorem clsClearsEveryPixel : Obligations.ClsClearsEveryPixel := fun _ =>
  ⟨_, rfl, rfl, pixel_clearFb, exec_frame (i := .cls) rfl⟩

/-- Settles O26: the two sides of the bound on I, and in range what DRW does to the pixels and to VF. -/
theorem drwXorsPixelsAndFlagsCollision : Obligations.DrwXorsPixelsAndFlagsCollision := by
  intro x y n s
  refine ⟨fun hin => ?_, fun hn hout => exec_drw_out (mt (BitVec.eq_of_toNat_eq (y := 0)) hn) hout⟩
  have hexec : exec (.drw x y n) s = .next (s.drwDone x y n) := exec_drw_in (hin.imp_left (congrArg BitVec.toNat))
  exact ⟨_, hexec, rfl, exec_drw_pixel hexec, (exec_drw_vf_one hexec).mpr, (exec_drw_vf_zero hexec).mpr,
    exec_frame hexec⟩

/-- Settles O27: both draws flip the same pixels, so the second undoes the first and meets an on pixel exactly where the
first turned one on. -/
theorem drwTwiceRestoresFramebuffer : Obligations.DrwTwiceRestoresFramebuffer := by
  intro x y n s t u hfirst hx hy hsecond
  have htouch := spriteTouches_after_drw hfirst hx hy (n := n)
  have hflips : ∀ px py, pixel u.fb px py ≠ pixel t.fb px py ↔ pixel t.fb px py ≠ pixel s.fb px py := fun px py =>
    (exec_drw_pixel hsecond px py).trans ((htouch px py).trans (exec_drw_pixel hfirst px py).symm)
  refine ⟨fun px py => ?_, ?_⟩
  · by_cases hkept : pixel t.fb px py = pixel s.fb px py
    · exact (not_ne_iff.mp (mt (hflips px py).mp (not_not_intro hkept))).trans hkept
    · exact (Bool.eq_not.mpr ((hflips px py).mpr hkept)).trans (Bool.eq_not.mpr (Ne.symm hkept)).symm
  · rw [exec_drw_vf_one hsecond]
    refine exists_congr fun px => exists_congr fun py => ?_
    rw [htouch, ← exec_drw_pixel hfirst]
    cases pixel t.fb px py <;> simp

end Sys2Proof.Machine
end

section
/-! PROOFS. Control flow (spec/42_control_flow.md): what RET and CALL answer on either side of their stack bound, where
the jumps and skips put PC, and that a step which writes the status output alone can be repeated for ever. -/

namespace Sys2Proof.Machine

section Rules
variable {s : State} {nnn : Addr}

/-! ### RET and CALL, on either side of the stack bound (R150, R153) -/

theorem exec_ret_empty (hsp : s.sp = 0) :
    exec .ret s = .next (s.endRun .stackUnderflow .fatalStackUnderflow) := by
  simp only [exec, execRet, State.pop, if_pos hsp]

theorem exec_ret_pop {a : Word} (hsp : s.sp ≠ 0) (htop : s.stack[s.sp - 1]? = some a) :
    exec .ret s = complete ({ s with sp := s.sp - 1 }.setPc a) := by
  simp only [exec, execRet, State.pop, if_neg hsp, htop, Option.getD_some]

theorem exec_call_push (hsp : s.sp ≠ s.cfg.stackDepth) :
    exec (.call nnn) s =
      complete ({ s with stack := s.stack.set s.sp s.pc, sp := s.sp + 1 }.setPc (addrWord nnn)) := by
  simp only [exec, execCall, State.push, if_neg hsp]

theorem exec_call_stall (hsp : s.sp = s.cfg.stackDepth) :
    exec (.call nnn) s = .next (s.rollBack.setStatus .stackOverflowStall) := by
  simp only [exec, execCall, State.push, if_pos hsp]

/-! ### Where a jump or a skip puts PC (R154-R159) -/

/-- NNN + V0 is below 2^16, so the 16-bit sum is exact (R158). -/
theorem State.indexedTarget_toNat (s : State) (nnn : Addr) :
    (s.indexedTarget nnn).toNat = nnn.toNat + (s.getV V0).toNat := by
  have hv : ((s.getV V0).setWidth 16).toNat = (s.getV V0).toNat := BitVec.toNat_setWidth_of_le (by decide)
  rw [State.indexedTarget, BitVec.toNat_add, addrWord_toNat, hv]
  exact Nat.mod_eq_of_lt (by omega)

theorem State.skipIf_beq_pc (s : State) (a b : Byte) :
    (s.skipIf (a == b)).pc = if a = b then s.pc + 2 else s.pc := by
  simp [State.skipIf_eq]

theorem State.skipIf_bne_pc (s : State) (a b : Byte) :
    (s.skipIf (a != b)).pc = if a = b then s.pc else s.pc + 2 := by
  simp [State.skipIf_eq]

/-! ### Steps that write the status output alone (R152, R153) -/

theorem State.AtInstr.setStatus {i : Instr} (h : s.AtInstr i) (c : Status) : (s.setStatus c).AtInstr i := h

/-- A step that reports `c` and writes nothing else, whatever the status before it, goes on doing so. -/
theorem runSteps_of_step_setStatus {c : Status} (hstep : ∀ d, step (s.setStatus d) = .next (s.setStatus c)) (n : Nat) :
    runSteps (n + 1) s = .next (s.setStatus c) := by
  suffices hall : ∀ d, runSteps (n + 1) (s.setStatus d) = .next (s.setStatus c) from hall s.status
  induction n with
  | zero => exact fun d => runSteps_succ 0 (hstep d)
  | succ n ih => exact fun d => (runSteps_succ (n + 1) (hstep d)).trans (ih c)

/-- A jump to itself undoes the advance (R152). -/
theorem step_jp_self (hat : s.AtInstr (.jp nnn)) (hself : addrWord nnn = s.pc) :
    step s = .next (s.setStatus .ok) := by
  have hexec : exec (.jp nnn) (advance s) = .next ((s.setPc (addrWord nnn)).setStatus .ok) := rfl
  rw [hat.step_eq, hexec, hself]
  rfl

/-- A CALL on a full stack rolls the advance back (R153). -/
theorem step_call_stall (hat : s.AtInstr (.call nnn)) (hfull : s.sp = s.cfg.stackDepth) :
    step s = .next (s.setStatus .stackOverflowStall) := by
  have hpc : (advance s).rollBack = s := congrArg s.setPc (BitVec.add_sub_cancel s.pc 2)
  rw [hat.step_eq, exec_call_stall (s := advance s) hfull, hpc]
  rfl

end Rules

/-! ### The statements -/

/-- Settles O29: the two sides of the bound SP = 0. -/
theorem retPopsOrEndsRun : Obligations.RetPopsOrEndsRun := by
  refine fun s => ⟨fun hsp => ?_, fun a hsp htop => ?_⟩
  · have hexec := exec_ret_empty hsp
    exact ⟨_, hexec, rfl, rfl, by simpa [execWrites, hsp] using exec_frame hexec⟩
  · have hexec := exec_ret_pop hsp htop
    exact ⟨_, hexec, rfl, rfl, Nat.succ_pred_eq_of_ne_zero hsp, rfl,
      by simpa [execWrites, hsp] using exec_frame hexec⟩

/-- Settles O30: the two sides of the bound SP = STACK_DEPTH; the stalled step can be repeated, since it leaves SP, PC and
memory as they are. -/
theorem callPushesOrStalls : Obligations.CallPushesOrStalls := by
  refine fun nnn s => ⟨fun hroom hlen => ?_, fun hfull => ?_, fun n hat hfull => ?_⟩
  · have hexec := exec_call_push (nnn := nnn) hroom.ne
    exact ⟨_, hexec, rfl, addrWord_toNat nnn, rfl, List.getElem?_set_self (hlen ▸ hroom),
      fun k hk => List.getElem?_set_ne hk.symm, by simpa [execWrites, hroom.ne] using exec_frame hexec⟩
  · have hexec := exec_call_stall (nnn := nnn) hfull
    exact ⟨_, hexec, rfl, rfl, by simpa [execWrites, hfull] using exec_frame hexec⟩
  · exact runSteps_of_step_setStatus (fun d => step_call_stall (hat.setStatus d) hfull) n

/-- Settles O32: NNN zero-extended, and the exact sum NNN + V0. -/
theorem jumpsSetPc : Obligations.JumpsSetPc := fun nnn s =>
  ⟨⟨_, rfl, rfl, addrWord_toNat nnn, exec_frame (i := .jp nnn) rfl⟩,
    ⟨_, rfl, rfl, s.indexedTarget_toNat nnn, exec_frame (i := .jpV0 nnn) rfl⟩⟩

/-- Settles O33: the step of a jump to itself writes the status output alone, so it can be repeated. -/
theorem jumpToSelfSpins : Obligations.JumpToSelfSpins := fun n _ nnn hat hpc =>
  have hself := BitVec.eq_of_toNat_eq ((addrWord_toNat nnn).trans hpc.symm)
  runSteps_of_step_setStatus (fun d => step_jp_self (hat.setStatus d) hself) n

/-- Settles O34: both skips are a `skipIf` on the comparison with KK. -/
theorem skipsOnImmediate : Obligations.SkipsOnImmediate := fun x kk s =>
  ⟨⟨_, rfl, rfl, s.skipIf_beq_pc _ _, exec_frame (i := .seImm x kk) rfl⟩,
    ⟨_, rfl, rfl, s.skipIf_bne_pc _ _, exec_frame (i := .sneImm x kk) rfl⟩⟩

/-- Settles O35: both skips are a `skipIf` on the comparison of the registers, whatever the low nibble. -/
theorem skipsOnRegister : Obligations.SkipsOnRegister := fun x y n s =>
  ⟨⟨_, rfl, rfl, s.skipIf_beq_pc _ _, exec_frame (i := .seReg x y n) rfl⟩,
    ⟨_, rfl, rfl, s.skipIf_bne_pc _ _, exec_frame (i := .sneReg x y n) rfl⟩⟩

end Sys2Proof.Machine
end

section
/-! PROOFS. ALU and logic (spec/43_alu.md): each result and each flag as a natural number, what the two flag writes leave
in Vx and in VF, and the statements, whose frames are `exec_frame`. -/

namespace Sys2Proof.Machine

/-! ### Results, as naturals (R180) -/

theorem sumByte_toNat (a b : Byte) : (sumByte a b).toNat = (a.toNat + b.toNat) % 256 := BitVec.toNat_ofNat _ _

theorem diffByte_toNat (a b : Byte) : (diffByte a b).toNat = (256 + a.toNat - b.toNat) % 256 := by
  rw [diffByte, BitVec.toNat_ofInt]
  omega

theorem halfByte_toNat (v : Byte) : (halfByte v).toNat = v.toNat / 2 := by
  rw [halfByte, BitVec.toNat_ofNat]
  omega

theorem doubleByte_toNat (v : Byte) : (doubleByte v).toNat = v.toNat * 2 % 256 := BitVec.toNat_ofNat _ _

/-- Adding `n` is undone by adding `256 - n` modulo 256 (R180). -/
theorem sumByte_negated (a n : Byte) : sumByte (sumByte a n) (BitVec.ofNat 8 ((256 - n.toNat) % 256)) = a := by
  apply BitVec.eq_of_toNat_eq
  rw [sumByte_toNat, sumByte_toNat, BitVec.toNat_ofNat]
  omega

/-! ### Flags, as naturals (R187-R192) -/

theorem flagByte_carryOut (a b : Byte) :
    (flagByte (carryOut a b)).toNat = if a.toNat + b.toNat > 255 then 1 else 0 := by
  simp [flagByte_toNat, carryOut]

theorem flagByte_strictlyAbove (a b : Byte) :
    (flagByte (strictlyAbove a b)).toNat = if b.toNat < a.toNat then 1 else 0 := by
  simp [flagByte_toNat, strictlyAbove]

/-- Bit 0 is the remainder of the halving (R191). -/
theorem flagByte_droppedRight (v : Byte) : (flagByte (droppedRight v)).toNat = v.toNat % 2 := by
  rw [flagByte_toNat, droppedRight, BitVec.getLsbD, Nat.testBit_zero]
  rcases Nat.mod_two_eq_zero_or_one v.toNat with h | h <;> simp [h]

/-- Bit 7 is what the doubling carries past 8 bits (R192). -/
theorem flagByte_droppedLeft (v : Byte) : (flagByte (droppedLeft v)).toNat = v.toNat / 128 := by
  have hlt : v.toNat / 128 < 2 := by omega
  rw [flagByte_toNat, droppedLeft, BitVec.getLsbD, Nat.testBit_eq_decide_div_mod_eq, Nat.mod_eq_of_lt hlt]
  interval_cases v.toNat / 128 <;> rfl

/-! ### What the two writes leave in Vx and VF (R190) -/

section Writes
variable (s : State) (x : RegIx) (r : Byte) (f : Bool)

theorem State.getV_writeResultThenFlag_VF : (s.writeResultThenFlag x r f).getV VF = flagByte f :=
  (s.setV x r).getV_setV_same VF (flagByte f)

theorem State.getV_writeResultThenFlag_result (hx : x ≠ VF) : (s.writeResultThenFlag x r f).getV x = r :=
  ((s.setV x r).getV_setV_ne hx.symm (flagByte f)).trans (s.getV_setV_same x r)

end Writes

/-- Vx and VF each get their own where they differ; where X = 15 the later write stands. -/
theorem resultAndFlag_writeResultAndFlag (s : State) (x : RegIx) {r : Byte} {f : Bool} {n k : Nat}
    (hr : r.toNat = n) (hf : (flagByte f).toNat = k) : ResultAndFlag s (s.writeResultAndFlag x r f) x n k := by
  subst hr hf
  refine ⟨fun hx => ?_, fun hx ho => ?_, fun hx ho => ?_⟩
  · cases ho : s.cfg.aluFlagOrder <;> simp [State.getV_writeResultAndFlag, ho, hx, hx.symm]
  · simp [State.getV_writeResultAndFlag, ho, hx]
  · simp [State.getV_writeResultAndFlag, ho]

/-! ### The statements -/

/-- Settles O38: the first addition has written Vx alone, and the second writes its first value back. -/
theorem addImmediateIsInvertible : Obligations.AddImmediateIsInvertible := by
  refine fun x n s => ⟨_, _, rfl, rfl, fun r => ?_⟩
  rcases eq_or_ne x r with rfl | hr
  · simp [sumByte_negated]
  · simp [State.getV_setV_ne _ hr]

/-- Settles O36: a load is one register write. -/
theorem registerLoads : Obligations.RegisterLoads := fun x y kk s =>
  ⟨⟨_, rfl, rfl, s.getV_setV_same x kk, exec_frame (i := .ldImm x kk) rfl⟩,
    ⟨_, rfl, rfl, s.getV_setV_same x (s.getV y), exec_frame (i := .ldReg x y) rfl⟩⟩

/-- Settles O37: the one register written is Vx, with the sum. -/
theorem addImmediateWraps : Obligations.AddImmediateWraps := fun x kk s =>
  ⟨_, rfl, rfl, (congrArg BitVec.toNat (s.getV_setV_same x _)).trans (sumByte_toNat _ kk),
    exec_frame (i := .addImm x kk) rfl⟩

/-- Settles O39: the flag 0 is written last, and the bits of Vx are those of the bitwise result. -/
theorem logicOpsClearVf : Obligations.LogicOpsClearVf := by
  refine fun x y s =>
    ⟨⟨_, rfl, rfl, s.getV_writeResultThenFlag_VF x _ _, fun hx k => ?_, exec_frame (i := .orReg x y) rfl⟩,
      ⟨_, rfl, rfl, s.getV_writeResultThenFlag_VF x _ _, fun hx k => ?_, exec_frame (i := .andReg x y) rfl⟩,
      ⟨_, rfl, rfl, s.getV_writeResultThenFlag_VF x _ _, fun hx k => ?_, exec_frame (i := .xorReg x y) rfl⟩⟩
  all_goals rw [State.getV_setStatus, s.getV_writeResultThenFlag_result x _ _ hx]
  · exact BitVec.getLsbD_or
  · exact BitVec.getLsbD_and
  · exact BitVec.getLsbD_xor

/-- Settles O40: the exact sum gives both the result and the carry. -/
theorem addSetsSumAndCarry : Obligations.AddSetsSumAndCarry := fun x y s =>
  ⟨_, rfl, rfl, resultAndFlag_writeResultAndFlag s x (sumByte_toNat _ _) (flagByte_carryOut _ _),
    exec_frame (i := .addReg x y) rfl⟩

/-- Settles O41: SUBN takes the difference and the comparison of SUB with the operands exchanged. -/
theorem subtractsSetStrictFlag : Obligations.SubtractsSetStrictFlag := fun x y s =>
  ⟨⟨_, rfl, rfl, resultAndFlag_writeResultAndFlag s x (diffByte_toNat _ _) (flagByte_strictlyAbove _ _),
      exec_frame (i := .subReg x y) rfl⟩,
    ⟨_, rfl, rfl, resultAndFlag_writeResultAndFlag s x (diffByte_toNat _ _) (flagByte_strictlyAbove _ _),
      exec_frame (i := .subnReg x y) rfl⟩⟩

/-- Settles O42: the result and the dropped bit are quotient and remainder of one shift of the old Vy. -/
theorem shiftsSourceVy : Obligations.ShiftsSourceVy := fun x y s =>
  ⟨⟨_, rfl, rfl,
      fun hx => (congrArg BitVec.toNat (s.getV_writeResultThenFlag_result x _ _ hx)).trans (halfByte_toNat _),
      (congrArg BitVec.toNat (s.getV_writeResultThenFlag_VF x _ _)).trans (flagByte_droppedRight _),
      exec_frame (i := .shrReg x y) rfl⟩,
    ⟨_, rfl, rfl,
      fun hx => (congrArg BitVec.toNat (s.getV_writeResultThenFlag_result x _ _ hx)).trans (doubleByte_toNat _),
      (congrArg BitVec.toNat (s.getV_writeResultThenFlag_VF x _ _)).trans (flagByte_droppedLeft _),
      exec_frame (i := .shlReg x y) rfl⟩⟩

/-- Settles O43: whatever byte the draw is, Vx gets its bits under KK. -/
theorem randomIsMaskedDraw : Obligations.RandomIsMaskedDraw := fun x kk s =>
  ⟨_, rfl, rfl, fun k => (congrArg (·.getLsbD k) (s.getV_setV_same x _)).trans BitVec.getLsbD_and, rfl,
    exec_frame (i := .rnd x kk) rfl⟩

end Sys2Proof.Machine
end

section
/-! PROOFS. The index register, BCD, and register store and load (spec/44_index_memory.md): the values of I as naturals,
the bytes stored and the registers loaded, and the statements, whose frames are `exec_frame`. -/

namespace Sys2Proof.Machine

theorem addrRange_eq_map_range (base n : Nat) : addrRange base n = (List.range n).map (base + ·) := by
  induction n generalizing base with
  | zero => rfl
  | succ n ih => simp [addrRange, ih, List.range_succ_eq_map, Nat.add_assoc, Nat.add_comm 1]

section Rules
variable {x k : RegIx} {s t : State}

/-! ### The values of I, as naturals (R221, R222, R224) -/

theorem State.addI_toNat (s : State) (x : RegIx) :
    (s.i + (s.getV x).setWidth 16).toNat = (s.i.toNat + (s.getV x).toNat) % 65536 := by
  rw [BitVec.toNat_add, BitVec.toNat_setWidth_of_le (by decide)]

theorem State.glyphAddr_toNat (s : State) (d : Byte) :
    (s.glyphAddr d).toNat = (s.cfg.fontBase + 5 * d.toNat) % 65536 := BitVec.toNat_ofNat _ _

theorem State.indexPastRegs_toNat (s : State) (x : RegIx) :
    (s.indexPastRegs x).toNat = (s.i.toNat + x.val + 1) % 65536 := by
  rw [State.indexPastRegs, BitVec.toNat_add, BitVec.toNat_ofNat, Nat.add_mod_mod, regCount, Nat.add_assoc]

/-! ### On either side of the range (R54, R61) -/

theorem exec_ldB_in (h : s.i.toNat + 2 < memSize) :
    exec (.ldB x) s = complete (s.writeBytes s.i.toNat (bcdDigits (s.getV x))) := checked_in _ (.inr h)

theorem exec_ldB_out (h : memSize ≤ s.i.toNat + 2) :
    exec (.ldB x) s = .fault (.memOutOfRange (max s.i.toNat memSize)) :=
  checked_out _ (by decide) (Nat.lt_succ_of_le h)

theorem exec_storeRegs_in (h : s.i.toNat + x.val < memSize) :
    exec (.storeRegs x) s =
      complete ((s.writeBytes s.i.toNat (s.leadingRegs x)).setI (s.indexPastRegs x)) := checked_in _ (.inr h)

theorem exec_storeRegs_out (h : memSize ≤ s.i.toNat + x.val) :
    exec (.storeRegs x) s = .fault (.memOutOfRange (max s.i.toNat memSize)) :=
  checked_out _ (Nat.succ_ne_zero _) (Nat.lt_succ_of_le h)

theorem exec_loadRegs_in (h : s.i.toNat + x.val < memSize) :
    exec (.loadRegs x) s =
      complete ((s.setRegs (loadInto 0 (s.readBytes s.i.toNat (regCount x)) s.v)).setI (s.indexPastRegs x)) :=
  checked_in _ (.inr h)

theorem exec_loadRegs_out (h : memSize ≤ s.i.toNat + x.val) :
    exec (.loadRegs x) s = .fault (.memOutOfRange (max s.i.toNat memSize)) :=
  checked_out _ (Nat.succ_ne_zero _) (Nat.lt_succ_of_le h)

/-- A store that completes had its range in memory. -/
theorem exec_storeRegs_range (h : exec (.storeRegs x) s = .next t) : s.i.toNat + x.val < memSize :=
  (checked_next.mp h).1.resolve_left (Nat.succ_ne_zero _)

/-! ### The bytes stored and the registers loaded (R223-R225) -/

/-- The digits of a byte fit a byte, so none is truncated. -/
theorem bcdDigits_map_toNat (v : Byte) :
    (bcdDigits v).map BitVec.toNat = [v.toNat / 100, v.toNat / 10 % 10, v.toNat % 10] := by
  simp (disch := omega) only [bcdDigits, List.map_cons, List.map_nil, BitVec.toNat_ofNat, Nat.mod_eq_of_lt]

theorem readByte_ldB_toNat {j : Nat} (hwf : Memory.wf s.cfg.fontBase s.mem = true) (h : exec (.ldB x) s = .next t)
    (hj : j < 3) : (t.readByte (s.i.toNat + j)).toNat =
      [(s.getV x).toNat / 100, (s.getV x).toNat / 10 % 10, (s.getV x).toNat % 10][j] := by
  obtain ⟨hb, rfl⟩ := execLdB_next.mp h
  have hbyte := s.readByte_writeBytes_inside s.i.toNat (bcdDigits (s.getV x)) j hj hb hwf
  calc _ = (bcdDigits (s.getV x))[j].toNat := congrArg BitVec.toNat hbyte
    _ = ((bcdDigits (s.getV x)).map BitVec.toNat)[j] := (List.getElem_map BitVec.toNat).symm
    _ = _ := List.getElem_of_eq (bcdDigits_map_toNat _) _

theorem readByte_storeRegs (hwf : Memory.wf s.cfg.fontBase s.mem = true) (h : exec (.storeRegs x) s = .next t)
    (hk : k ≤ x) : t.readByte (s.i.toNat + k.val) = s.getV k := by
  obtain ⟨hb, rfl⟩ := execStoreRegs_next.mp h
  have hlt : k.val < (s.leadingRegs x).length := s.length_leadingRegs x ▸ Nat.lt_succ_of_le hk
  exact (s.readByte_writeBytes_inside _ _ k.val hlt hb hwf).trans (s.getElem_leadingRegs x k.val hlt k.isLt)

theorem getV_loadRegs (h : exec (.loadRegs x) s = .next t) (hk : k ≤ x) :
    t.getV k = s.readByte (s.i.toNat + k.val) := by
  obtain rfl := complete_next.mp (checked_next.mp h).2
  have hbyte := s.getElem?_readBytes s.i.toNat (regCount x) k.val (Nat.lt_succ_of_le hk)
  simp [State.getV, Vector.get_eq_getElem, loadInto_getElem, State.indexAddr, hbyte]

end Rules

/-! ### The statements -/

/-- Settles O45: the three digits are one run of bytes written from I on. -/
theorem bcdStoresDigits : Obligations.BcdStoresDigits := by
  refine fun x s => ⟨fun hwf hin => ?_, exec_ldB_out⟩
  have hexec := exec_ldB_in (x := x) hin
  have hdigit j (hj : j < 3) := readByte_ldB_toNat hwf hexec hj
  exact ⟨_, hexec, rfl, hdigit 0 (by decide), hdigit 1 (by decide), hdigit 2 (by decide), exec_frame hexec⟩

/-- Settles O46: V0..VX are one run of bytes written from the old I on. -/
theorem storeWritesLeadingRegisters : Obligations.StoreWritesLeadingRegisters := by
  refine fun x s => ⟨fun hwf hin => ?_, exec_storeRegs_out⟩
  have hexec := exec_storeRegs_in hin
  exact ⟨_, hexec, rfl, fun k => readByte_storeRegs hwf hexec, s.indexPastRegs_toNat x,
    addrRange_eq_map_range s.i.toNat (x.val + 1) ▸ exec_frame hexec⟩

/-- Settles O47: the bytes from the old I on go to V0..VX in order. -/
theorem loadReadsLeadingRegisters : Obligations.LoadReadsLeadingRegisters := by
  refine fun x s => ⟨fun hin => ?_, exec_loadRegs_out⟩
  have hexec := exec_loadRegs_in hin
  exact ⟨_, hexec, rfl, fun k => getV_loadRegs hexec, s.indexPastRegs_toNat x, exec_frame hexec⟩

/-- Settles O48: the load reads the bytes that the store left, over the range that the store has checked. -/
theorem storeThenLoadRestores : Obligations.StoreThenLoadRestores := fun _ s t regs hwf hstore =>
  have hrange := exec_storeRegs_range hstore
  have hload := exec_loadRegs_in (s := { t with v := regs, i := s.i }) hrange
  ⟨_, hload, fun _ hk => (getV_loadRegs hload hk).trans (readByte_storeRegs (t := t) hwf hstore hk)⟩

/-- Settles O44: each instruction is one write of I. -/
theorem indexLoads : Obligations.IndexLoads := fun nnn x s =>
  ⟨⟨_, rfl, rfl, addrWord_toNat nnn, exec_frame (i := .ldI nnn) rfl⟩,
    ⟨_, rfl, rfl, s.addI_toNat x, exec_frame (i := .addI x) rfl⟩,
    ⟨_, rfl, rfl, s.glyphAddr_toNat (s.getV x), exec_frame (i := .ldF x) rfl⟩⟩

end Sys2Proof.Machine
end

section
/-! PROOFS. Timers and keys (spec/45_timers_keys.md): the key a skip reads, the lowest key and the re-check in the words
of the statements, what LD Vx, K answers with and without a key, the countdown as a natural number, and the statements. -/

namespace Sys2Proof.Machine

/-! ### Keys, by their index (R252, R254, R255) -/

section Keys
variable {S : KeyState}

theorem lowestKey_eq_none_iff : lowestKey S = none ↔ ∀ k, S.get k = false :=
  lowestKey_none.trans ⟨fun h k => h k k.isLt, fun h j hj => h ⟨j, hj⟩⟩

theorem lowestKey_eq_some {k : Fin 16} (hk : S.get k = true) (hbelow : ∀ j, j < k → S.get j = false) :
    lowestKey S = some k.val := by
  cases hlow : lowestKey S with
  | none => exact absurd hk (Bool.eq_false_iff.mp (lowestKey_eq_none_iff.mp hlow k))
  | some m =>
    obtain ⟨hm, hpressed, hleast⟩ := lowestKey_some hlow
    have hkm : ¬k.val < m := fun hlt => absurd hk (Bool.eq_false_iff.mp (hleast k k.isLt hlt))
    have hmk : ¬m < k.val := fun hlt => absurd hpressed (Bool.eq_false_iff.mp (hbelow ⟨m, hm⟩ hlt))
    exact congrArg some (by omega)

theorem anyKey_of_get {j : Fin 16} (hj : S.get j = true) : anyKey S = true :=
  (anyKey_iff S).mpr ⟨j, j.isLt, hj⟩

theorem anyKey_eq_false (h : ∀ j, S.get j = false) : anyKey S = false :=
  congrArg Option.isSome (lowestKey_eq_none_iff.mpr h)

end Keys

section Rules
variable {s t : State} {x : RegIx}

theorem State.keyAt_of_eq {v : Byte} {k : Fin 16} (h : v.toNat = k.val) : s.keyAt v = .ok (s.keys.get k) := by
  rcases s.keyAt_cases v with ⟨j, hj, hkey⟩ | ⟨hout, -⟩
  · exact Fin.ext (hj.symm.trans h) ▸ hkey
  · omega

theorem State.keyAt_above {v : Byte} (h : 15 < v.toNat) : s.keyAt v = .error (.keyIndexOutOfRange v) := by
  rcases s.keyAt_cases v with ⟨j, hj, -⟩ | ⟨-, hkey⟩
  · omega
  · exact hkey

/-! ### SKP and SKNP, on either side of the last key (R250-R252) -/

section InRange
variable {k : Fin 16} (h : (s.getV x).toNat = k.val)
include h

theorem exec_skp_in : exec (.skp x) s = complete (s.skipIf (s.keys.get k)) := by
  simp only [exec, execSkp, State.keyAt_of_eq h]

theorem exec_sknp_in : exec (.sknp x) s = complete (s.skipIf (!s.keys.get k)) := by
  simp only [exec, execSknp, State.keyAt_of_eq h]

end InRange

section OutOfRange
variable (h : 15 < (s.getV x).toNat)
include h

theorem exec_skp_out : exec (.skp x) s = .fault (.keyIndexOutOfRange (s.getV x)) := by
  simp only [exec, execSkp, State.keyAt_above h]

theorem exec_sknp_out : exec (.sknp x) s = .fault (.keyIndexOutOfRange (s.getV x)) := by
  simp only [exec, execSknp, State.keyAt_above h]

end OutOfRange

theorem State.skipIf_pc (s : State) (c : Bool) : (s.skipIf c).pc = if c then s.pc + 2 else s.pc :=
  congrArg State.pc (s.skipIf_eq c)

theorem State.skipIf_not_pc (s : State) (c : Bool) : (s.skipIf (!c)).pc = if c then s.pc else s.pc + 2 := by
  cases c <;> rfl

/-! ### LD Vx, K, with and without a key (R255, R265) -/

theorem exec_ldVxK_none (h : lowestKey s.keys = none) : exec (.ldVxK x) s = complete s.rollBack := by
  simp only [exec, execLdVxK, h]

theorem exec_ldVxK_some {k : Nat} (h : lowestKey s.keys = some k) :
    exec (.ldVxK x) s = complete (keyFound s.recheckSample x k s).countRecheck := by
  simp only [exec, execLdVxK, h]

theorem State.recheckSample_same (h : s.cfg.keyRecheck = .sameSample) : s.recheckSample = s.keys := by
  simp only [State.recheckSample, h]

theorem State.recheckSample_fresh (h : s.cfg.keyRecheck = .freshSample) :
    s.recheckSample = Config.recheckKeys s.draws := by
  simp only [State.recheckSample, h]

theorem keyFound_cfg (s2 : KeyState) (k : Nat) : (keyFound s2 x k s).cfg = s.cfg := by rw [keyFound_eq]; rfl

theorem keyFound_draws (s2 : KeyState) (k : Nat) : (keyFound s2 x k s).draws = s.draws := by rw [keyFound_eq]; rfl

theorem keyFound_pc (s2 : KeyState) (k : Nat) :
    (keyFound s2 x k s).pc = if anyKey s2 then s.pc - 2 else s.pc := by rw [keyFound_eq]; rfl

/-- A key index fits a byte, so it is stored untruncated. -/
theorem keyFound_getV_toNat (s2 : KeyState) (k : Fin 16) : ((keyFound s2 x k s).getV x).toNat = k.val := by
  rw [keyFound_eq, State.getV_setPc, State.getV_setV_same, BitVec.toNat_ofNat]
  omega

/-- What the wait may change, whether or not a key is found. -/
theorem exec_ldVxK_frame (h : exec (.ldVxK x) s = .next t) :
    FrameOf { regs := [x], pc := true, draws := true } s t :=
  have hsub : (execWrites (.ldVxK x) s).regs ⊆ [x] := by
    simp only [execWrites]
    split <;> simp
  have hframe := exec_frame h
  { hframe with
    regs := fun r hr => hframe.regs r (mt (@hsub r) hr)
    draws := nofun }

/-! ### The wait under SameSample (R256) -/

/-- With no key PC goes back, and with one the re-check finds it again. -/
theorem exec_ldVxK_sameSample (x : RegIx) (h : s.cfg.keyRecheck = .sameSample) :
    ∃ t, exec (.ldVxK x) s = .next t ∧ t.pc = s.pc - 2 := by
  cases hlow : lowestKey s.keys with
  | none => exact ⟨_, exec_ldVxK_none hlow, rfl⟩
  | some k =>
    have hany : anyKey s.recheckSample = true := by rw [State.recheckSample_same h, anyKey, hlow]; rfl
    refine ⟨_, exec_ldVxK_some hlow, ?_⟩
    rw [State.setStatus_pc, State.countRecheck_pc, keyFound_pc, if_pos hany]

theorem FrameOf.trans {w : Writes} {u : State} (h₁ : FrameOf w s t) (h₂ : FrameOf w t u) : FrameOf w s u where
  regs r hr := (h₂.regs r hr).trans (h₁.regs r hr)
  i h := (h₂.i h).trans (h₁.i h)
  pc h := (h₂.pc h).trans (h₁.pc h)
  sp h := (h₂.sp h).trans (h₁.sp h)
  stack h := (h₂.stack h).trans (h₁.stack h)
  dt h := (h₂.dt h).trans (h₁.dt h)
  st h := (h₂.st h).trans (h₁.st h)
  fb h := (h₂.fb h).trans (h₁.fb h)
  mem a ha := (h₂.mem a ha).trans (h₁.mem a ha)
  run h := (h₂.run h).trans (h₁.run h)
  draws h := (h₂.draws h).trans (h₁.draws h)
  keys := h₂.keys.trans h₁.keys
  cfg := h₂.cfg.trans h₁.cfg

/-- An instruction that writes neither PC nor memory nor the run state is run again by the next step. -/
theorem FrameOf.atInstr {w : Writes} {i : Instr} (hframe : FrameOf w s t) (hpc : w.pc = false) (hmem : w.mem = [])
    (hrun : w.run = false) (hat : s.AtInstr i) : t.AtInstr i := by
  have hread a : t.readByte a = s.readByte a := hframe.mem a (hmem ▸ List.not_mem_nil)
  simpa only [State.AtInstr, hframe.pc hpc, hframe.run hrun, hframe.cfg, hread] using hat

/-- A step of the wait undoes the advance: it changes Vx and nothing else of the machine. -/
theorem step_ldVxK_sameSample (h : s.cfg.keyRecheck = .sameSample) (hat : s.AtInstr (.ldVxK x)) :
    ∃ t, step s = .next t ∧ FrameOf { regs := [x], draws := true } s t := by
  obtain ⟨t, hexec, hpc⟩ := exec_ldVxK_sameSample (s := advance s) x h
  have hback : t.pc = s.pc := hpc.trans (BitVec.add_sub_cancel s.pc 2)
  exact ⟨t, hat.step_eq.trans (congrArg (settle s) hexec), { exec_ldVxK_frame hexec with pc := fun _ => hback }⟩

theorem runSteps_ldVxK_sameSample {n : Nat} (h : s.cfg.keyRecheck = .sameSample) (hat : s.AtInstr (.ldVxK x))
    (hrun : runSteps n s = .next t) : FrameOf { regs := [x], draws := true } s t := by
  induction n generalizing s with
  | zero => exact Host.Outcome.next.inj hrun ▸ (Effect.refl _ s).toFrameOf
  | succ n ih =>
    obtain ⟨u, hstep, hframe⟩ := step_ldVxK_sameSample h hat
    have hrest : runSteps n u = .next t := (runSteps_succ n hstep).symm.trans hrun
    exact hframe.trans (ih (hframe.cfg ▸ h) (hframe.atInstr rfl rfl rfl hat) hrest)

end Rules

/-! ### The tick (R262) -/

theorem countDown_toNat (b : Byte) : (countDown b).toNat = b.toNat - 1 := by
  unfold countDown
  split
  · bv_omega
  · omega

theorem tick_dt_toNat (s : State) : (tick s).dt.toNat = s.dt.toNat - 1 := countDown_toNat s.dt

theorem tick_st_toNat (s : State) :
    (tick s).st.toNat = if s.cfg.soundTimerTicks then s.st.toNat - 1 else s.st.toNat := by
  rw [← countDown_toNat, ← apply_ite BitVec.toNat]
  rfl

theorem tick_frame (s : State) : FrameOf { dt := true, st := true } s (tick s) :=
  (((Effect.refl _ s).setDt _ rfl).setSt _ rfl).toFrameOf

/-! ### The statements -/

/-- Settles O51: both skips are a `skipIf` on the flag of the key read, where Vx names a key. -/
theorem keySkipsOrFaults : Obligations.KeySkipsOrFaults := by
  refine fun x s => ⟨fun k hk => ?_, fun hout => ⟨exec_skp_out hout, exec_sknp_out hout⟩⟩
  have hskp := exec_skp_in hk
  have hsknp := exec_sknp_in hk
  exact ⟨⟨_, hskp, rfl, s.skipIf_pc _, exec_frame hskp⟩, ⟨_, hsknp, rfl, s.skipIf_not_pc _, exec_frame hsknp⟩⟩

/-- Settles O53: with no key PC alone goes back, and the lowest key is stored whatever the re-check then finds. -/
theorem waitForKeyTable : Obligations.WaitForKeyTable := by
  refine fun x s => ⟨fun hnone => ?_, fun k s2 hk hbelow hs2 => ?_⟩
  · have hlow := lowestKey_eq_none_iff.mpr hnone
    have hexec := exec_ldVxK_none (x := x) hlow
    exact ⟨_, hexec, rfl, rfl, by simpa [execWrites, anyKey, hlow] using exec_frame hexec⟩
  · have hsample : s.recheckSample = s2 := by
      rcases hs2 with ⟨hsame, rfl⟩ | ⟨hfresh, rfl⟩
      · exact State.recheckSample_same hsame
      · exact State.recheckSample_fresh hfresh
    have hexec := hsample ▸ exec_ldVxK_some (x := x) (lowestKey_eq_some hk hbelow)
    refine ⟨_, hexec, rfl, ?_, fun ⟨j, hj⟩ => ?_, fun hnone => ?_, fun hfresh => ?_, fun hsame => ?_,
      exec_ldVxK_frame hexec⟩
    · rw [State.getV_setStatus, State.getV_countRecheck, keyFound_getV_toNat]
    · rw [State.setStatus_pc, State.countRecheck_pc, keyFound_pc, if_pos (anyKey_of_get hj)]
    · rw [State.setStatus_pc, State.countRecheck_pc, keyFound_pc,
        if_neg (ne_true_of_eq_false (anyKey_eq_false hnone))]
    · simp [State.countRecheck_draws, keyFound_cfg, keyFound_draws, hfresh]
    · simp [State.countRecheck_draws, keyFound_cfg, keyFound_draws, hsame]

/-- Settles O54: every step of the wait is one that changes Vx alone, so the wait is run again. -/
theorem sameSampleWaitNeverCompletes : Obligations.SameSampleWaitNeverCompletes := by
  intro n s t x hsame hat hrun
  have hframe := runSteps_ldVxK_sameSample hsame hat hrun
  exact ⟨hframe.pc rfl, fun r hr => hframe.regs r (mt List.mem_singleton.mp hr)⟩

/-- Settles O56, by induction on the number of ticks. -/
theorem delayTimerReachesZero : Obligations.DelayTimerReachesZero := by
  intro n s
  induction n with
  | zero => rfl
  | succ n ih => rw [Function.iterate_succ_apply', tick_dt_toNat, ih, Nat.sub_sub]

/-- Settles O52: each instruction is one write, of Vx or of a timer. -/
theorem timerMoves : Obligations.TimerMoves := fun x s =>
  ⟨⟨_, rfl, rfl, s.getV_setV_same x s.dt, exec_frame (i := .ldVxDt x) rfl⟩,
    ⟨_, rfl, rfl, rfl, exec_frame (i := .ldDtVx x) rfl⟩,
    ⟨_, rfl, rfl, rfl, exec_frame (i := .ldStVx x) rfl⟩⟩

/-- Settles O55: a tick is one `countDown` of DT and, under SOUND_TIMER_TICKS, one of ST. -/
theorem tickCountsDown : Obligations.TickCountsDown := fun s =>
  ⟨tick_dt_toNat s, tick_st_toNat s, rfl, tick_frame s⟩

end Sys2Proof.Machine
end

section
/-! PROOFS. Statuses and frames (spec/60_exceptions.md): which statuses each instruction can answer with, when an
instruction ends the run, what a frame of the host keeps, and the statements. -/

namespace Sys2Proof.Machine

section Rules
variable {i : Instr} {s t : State}

/-! ### What an instruction answers, by the table of R284 -/

/-- RET on a non-empty stack completes, whatever the popped entry (R150). -/
theorem exec_ret_nonempty (hsp : s.sp ≠ 0) :
    exec .ret s = complete ({ s with sp := s.sp - 1 }.setPc ((s.stack[s.sp - 1]?).getD 0)) := by
  simp only [exec, execRet, State.pop, if_neg hsp]

theorem complete_status_ok (s : State) : ∃ t, complete s = .next t ∧ t.status = .ok := ⟨_, rfl, rfl⟩

/-- A range check before an instruction that completes adds the memory fault and nothing else (R54, R61). -/
theorem checked_complete_status (base n : Nat) (s : State) :
    (∃ t, checked base n (complete s) = .next t ∧ t.status = .ok) ∨
      ∃ a, checked base n (complete s) = .fault (.memOutOfRange a) := by
  rcases checked_cases base n (complete s) with ⟨-, -, hout⟩ | ⟨-, hin⟩
  · exact .inr ⟨_, hout⟩
  · rw [hin]
    exact .inl (complete_status_ok s)

/-- The table of R284: SYS reports its word, RET and CALL branch on the stack, four check a range first, the key skips
read a key, and every other one completes, a waiting LD Vx, K among them. -/
theorem exec_statusAllowed (i : Instr) (s : State) : statusAllowed i (exec i s) := by
  cases i with
  | sys nnn => exact ⟨_, rfl, rfl⟩
  | ret =>
    by_cases hsp : s.sp = 0
    · exact .inr ⟨_, exec_ret_empty hsp, rfl⟩
    · exact .inl ⟨_, exec_ret_nonempty hsp, rfl⟩
  | call nnn =>
    by_cases hsp : s.sp = s.cfg.stackDepth
    · exact .inr ⟨_, exec_call_stall hsp, rfl⟩
    · exact .inl ⟨_, exec_call_push hsp, rfl⟩
  | drw _ _ _ | ldB _ | storeRegs _ | loadRegs _ => exact checked_complete_status _ _ _
  | skp x =>
    rcases s.keyAt_cases (s.getV x) with ⟨k, hk, -⟩ | ⟨hout, -⟩
    · exact .inl ⟨_, exec_skp_in hk, rfl⟩
    · exact .inr ⟨_, exec_skp_out hout⟩
  | sknp x =>
    rcases s.keyAt_cases (s.getV x) with ⟨k, hk, -⟩ | ⟨hout, -⟩
    · exact .inl ⟨_, exec_sknp_in hk, rfl⟩
    · exact .inr ⟨_, exec_sknp_out hout⟩
  | ldVxK x =>
    cases hlow : lowestKey s.keys with
    | none => exact ⟨_, exec_ldVxK_none hlow, rfl⟩
    | some k => exact ⟨_, exec_ldVxK_some hlow, rfl⟩
  | _ => exact complete_status_ok _

/-! ### The status an instruction leaves tells the run state (R281) -/

/-- Outside RET no status of a next state is a fatal one, by the table alone. -/
theorem status_of_statusAllowed (h : statusAllowed i (.next t)) (hret : i ≠ .ret) :
    t.status = .ok ∨ (∃ w, t.status = .unimplemented w) ∨ t.status = .stackOverflowStall := by
  cases i with
  | ret => exact absurd rfl hret
  | sys nnn =>
    obtain ⟨_, ⟨⟩, hsys⟩ := h
    exact .inr (.inl ⟨_, hsys⟩)
  | call nnn =>
    rcases h with ⟨_, ⟨⟩, hok⟩ | ⟨_, ⟨⟩, hstall⟩
    · exact .inl hok
    · exact .inr (.inr hstall)
  | drw _ _ _ | ldB _ | storeRegs _ | loadRegs _ | skp _ | sknp _ =>
    rcases h with ⟨_, ⟨⟩, hok⟩ | ⟨_, ⟨⟩⟩
    exact .inl hok
  | _ =>
    obtain ⟨_, ⟨⟩, hok⟩ := h
    exact .inl hok

/-- An instruction that answers a next state either is RET on an empty stack, which ends the run and says so, or reports
a status that ends nothing and keeps the run state (R150, R281). -/
theorem exec_status_run (h : exec i s = .next t) :
    (t.status = .fatalStackUnderflow ∧ t.run = .ended .stackUnderflow) ∨
      ((t.status = .ok ∨ (∃ w, t.status = .unimplemented w) ∨ t.status = .stackOverflowStall) ∧ t.run = s.run) := by
  by_cases hret : i = .ret
  · subst hret
    by_cases hsp : s.sp = 0
    · obtain rfl := Host.Outcome.next.inj ((exec_ret_empty hsp).symm.trans h)
      exact .inl ⟨rfl, rfl⟩
    · obtain rfl := Host.Outcome.next.inj ((exec_ret_nonempty hsp).symm.trans h)
      exact .inr ⟨.inl rfl, rfl⟩
  · have hrun : t.run = s.run := by_contra fun hne => hret (onlyEmptyRetEndsRun i s t h hne).1
    exact .inr ⟨status_of_statusAllowed (h ▸ exec_statusAllowed i s) hret, hrun⟩

/-! ### A frame of the host (R301) -/

/-- Any number of steps answer a next state, and keep the invariant, the key-state and the configuration. -/
theorem runSteps_keeps (n : Nat) (hs : s.Inv) :
    ∃ t, runSteps n s = .next t ∧ t.Inv ∧ t.keys = s.keys ∧ t.cfg = s.cfg := by
  induction n generalizing s with
  | zero => exact ⟨s, rfl, hs, rfl, rfl⟩
  | succ n ih =>
    obtain ⟨u, hstep⟩ := everyStepAnswersNext s
    obtain ⟨hukeys, hucfg⟩ := step_keys_cfg hstep
    obtain ⟨t, hrun, hinv, hkeys, hcfg⟩ := ih (step_inv hs hstep)
    exact ⟨t, (runSteps_succ n hstep).trans hrun, hinv, hkeys.trans hukeys, hcfg.trans hucfg⟩

theorem countDown_eq (b : Byte) : countDown b = BitVec.ofNat 8 (b.toNat - 1) := by
  rw [← countDown_toNat, BitVec.ofNat_toNat, BitVec.setWidth_eq]

/-- What the steps of a frame start from (R262, R263). -/
theorem tick_writeKeys (k : KeyState) (s : State) :
    tick (writeKeys k s) = { s with
      keys := k
      dt := BitVec.ofNat 8 (s.dt.toNat - 1)
      st := if s.cfg.soundTimerTicks then BitVec.ofNat 8 (s.st.toNat - 1) else s.st } := by
  simp only [← countDown_eq]
  rfl

/-- An admitted configuration has at least one step to a frame (R325). -/
theorem stepsPerFrame_pos (hs : s.Inv) : 0 < s.cfg.stepsPerFrame := by
  obtain ⟨hvalid, -⟩ := hs
  simp only [Config.valid, Bool.and_eq_true, decide_eq_true_eq] at hvalid
  exact hvalid.2

/-- A frame of an ended run is the key write, the tick and the report (R117, R301). -/
theorem frame_of_ended {r : EndReason} (k : KeyState) (hs : s.Inv) (hrun : s.run = .ended r) :
    frame k s = .next (reportNotRunning (tick (writeKeys k s))) := by
  obtain ⟨n, hn⟩ := Nat.exists_eq_succ_of_ne_zero (stepsPerFrame_pos hs).ne'
  have hframe : frame k s = runSteps s.cfg.stepsPerFrame (tick (writeKeys k s)) := rfl
  rw [hframe, hn]
  exact endedRunStaysEnded n _ r hrun

end Rules

/-! ### The statements -/

/-- Settles O14: the fetch fault at its bound, the unimplemented path, and the table over the constructors
(`exec_statusAllowed`). -/
theorem instructionStatusTable : Obligations.InstructionStatusTable :=
  ⟨fun _ hrun hpc => ⟨_, _, step_of_fetch_error hrun (fetch_out (Nat.succ_le_succ hpc)), rfl⟩,
    fun _ _ _ hrun hfetch hdec => ⟨_, step_of_decode_error hrun hfetch hdec, rfl⟩, exec_statusAllowed⟩

/-- Settles O13: the step reports an ended run, a fault or an unimplemented word itself, and else leaves the status and
the run state of the instruction (`exec_status_run`). -/
theorem statusTellsRunState : Obligations.StatusTellsRunState := by
  intro s t h
  rcases step_cases s with ⟨r, hrun, hs⟩ | ⟨hrun, f, -, hs⟩ | ⟨hrun, w, -, -, -, hs⟩ | ⟨hrun, -, i, -, -, hs⟩
  · obtain rfl := Host.Outcome.next.inj (hs.symm.trans h)
    exact ⟨by simp [hrun], rfl⟩
  · obtain rfl := Host.Outcome.next.inj (hs.symm.trans h)
    exact ⟨hrun, rfl⟩
  · obtain rfl := Host.Outcome.next.inj (hs.symm.trans h)
    exact ⟨hrun, hrun⟩
  rcases settle_cases s (exec i (advance s)) with ⟨u, hexec, hu⟩ | ⟨f, -, hu⟩ | ⟨e, hexec, -⟩
  · obtain rfl := Host.Outcome.next.inj ((hs.trans hu).symm.trans h)
    rcases exec_status_run hexec with ⟨hstatus, hend⟩ | ⟨hstatus | ⟨w, hstatus⟩ | hstatus, hkeep⟩ <;> rw [hstatus]
    · exact ⟨hrun, hend⟩
    all_goals exact ⟨hrun, hkeep.trans hrun⟩
  · obtain rfl := Host.Outcome.next.inj ((hs.trans hu).symm.trans h)
    exact ⟨hrun, rfl⟩
  · exact absurd hexec (exec_ne_refused i _ e)

/-- Settles O17: the key write and the tick keep the invariant as every step does, and an ended run is ticked once and
then reported. -/
theorem frameKeepsInvariant : Obligations.FrameKeepsInvariant := by
  intro k s hs
  refine ⟨runSteps_keeps (s := tick (writeKeys k s)) s.cfg.stepsPerFrame hs, ?_, fun r hrun => ?_⟩
  · exact congrArg (runSteps s.cfg.stepsPerFrame) (tick_writeKeys k s)
  · exact ⟨_, frame_of_ended k hs hrun, rfl, rfl, tick_dt_toNat (writeKeys k s), tick_st_toNat (writeKeys k s),
      { tick_frame (writeKeys k s) with }⟩

end Sys2Proof.Machine
end

section
/-! PROOFS. Initialization and the ROM load (spec/70_reset_and_hazards.md): what memory reads after initialization, the
invariant there, the load on either side of its bound, and the statements. -/

namespace Sys2Proof.Machine

/-! ### Memory after initialization (R320, R322) -/

/-- Memory lists nothing after initialization, so every address reads as its reset content (R320). -/
theorem State.readByte_init (c : Config) (a : Nat) : (State.init c).readByte a = unlistedByte c.fontBase a := rfl

theorem State.readByte_init_font (c : Config) {k : Nat} (hk : k < fontSize) :
    (State.init c).readByte (c.fontBase + k) = (fontTable[k]?).getD 0 := by
  rw [State.readByte_init, unlistedByte, if_pos ⟨Nat.le_add_right _ _, Nat.add_lt_add_left hk _⟩,
    Nat.add_sub_cancel_left]

theorem State.readByte_init_outside {c : Config} {a : Nat} (h : a < c.fontBase ∨ c.fontBase + fontSize ≤ a) :
    (State.init c).readByte a = 0 := by
  rw [State.readByte_init, unlistedByte, if_neg (by omega)]

theorem fontTable_length : fontTable.length = fontSize := rfl

/-- Initialization leaves the font table whole at FONT_BASE, wherever that is. -/
theorem State.readBytes_init_font (c : Config) : (State.init c).readBytes c.fontBase fontSize = fontTable := by
  refine List.ext_getElem? fun k => ?_
  rcases Nat.lt_or_ge k fontSize with hk | hk
  · rw [State.getElem?_readBytes _ _ _ _ hk, State.readByte_init_font c hk,
      List.getElem?_eq_getElem (fontTable_length ▸ hk), Option.getD_some]
  · rw [List.getElem?_eq_none (by rwa [State.length_readBytes]), List.getElem?_eq_none (by rwa [fontTable_length])]

/-! ### Registers, keys and pixels after initialization (R320) -/

theorem State.getV_init (c : Config) (r : RegIx) : (State.init c).getV r = 0 := Vector.getElem_replicate r.isLt

theorem State.keys_init (c : Config) (k : Fin 16) : (State.init c).keys.get k = false :=
  Vector.getElem_replicate k.isLt

/-- The framebuffer of initialization is the one CLS leaves. -/
theorem State.pixel_init (c : Config) (x : Fin 64) (y : Fin 32) : pixel (State.init c).fb x y = false :=
  pixel_clearFb x y

/-- The `init` port leaves the initialized state but for the count of draws (R321, log entry 5). -/
theorem hostInit_frame (s : State) : FrameOf { draws := true } (State.init s.cfg) (hostInit s) :=
  { (Effect.refl { draws := true } (State.init s.cfg)).toFrameOf with draws := nofun }

/-! ### The invariant after initialization (R325) -/

theorem State.init_inv {c : Config} (h : c.valid = true) : (State.init c).Inv :=
  ⟨h, Memory.wf_nil _, List.length_replicate, Nat.zero_le _⟩

theorem defaultConfig_valid : defaultConfig.valid = true := by decide

/-! ### The ROM load on either side of its bound (R323) -/

section Load
variable {bytes : List Byte} (s : State)

theorem romLoad_in (h : bytes.length ≤ maxRom) :
    romLoad bytes s = (s.writeBytes programBase bytes).setStatus .ok := if_neg (not_lt.mpr h)

theorem romLoad_out (h : maxRom < bytes.length) :
    romLoad bytes s = s.setStatus (.romTooLarge bytes.length) := if_pos h

/-- A ROM within the bound ends inside memory. -/
theorem programBase_add_le (h : bytes.length ≤ maxRom) : programBase + bytes.length ≤ memSize :=
  Nat.add_le_add_left h programBase

theorem readByte_romLoad (hwf : Memory.wf s.cfg.fontBase s.mem = true) (h : bytes.length ≤ maxRom) {k : Nat}
    (hk : k < bytes.length) : (romLoad bytes s).readByte (programBase + k) = bytes[k] := by
  rw [romLoad_in s h, State.readByte_setStatus]
  exact s.readByte_writeBytes_inside programBase bytes k hk (programBase_add_le h) hwf

/-- A load is one run of bytes and a status. -/
theorem romLoad_effect (h : bytes.length ≤ maxRom) :
    Effect { mem := addrRange programBase bytes.length } s (romLoad bytes s) := by
  rw [romLoad_in s h]
  exact ((Effect.refl _ s).writeBytes programBase bytes (List.Subset.refl _) (programBase_add_le h)).setStatus .ok

end Load

/-! ### The statements -/

/-- Settles O59: a load within the bound is one run of bytes written at 0x200, inside memory; one beyond it writes
nothing but the status. -/
theorem romLoadCopiesOrRejects : Obligations.RomLoadCopiesOrRejects := by
  refine fun bytes s hwf => ⟨fun h => ⟨?_, fun _ => readByte_romLoad s hwf h, ?_⟩, romLoad_out s⟩
  · rw [romLoad_in s h, State.setStatus_status]
  · exact addrRange_eq_map_range programBase bytes.length ▸ (romLoad_effect s h).toFrameOf

/-- Settles O16: memory lists nothing, the stack is made at its depth, and SP is 0. -/
theorem resetMeetsInvariant : Obligations.ResetMeetsInvariant :=
  ⟨rfl, State.init_inv defaultConfig_valid, fun _ => State.init_inv⟩

/-- Settles O57: each field is the value `State.init` gives it, and memory reads as its reset content. -/
theorem initializationValues : Obligations.InitializationValues :=
  ⟨fun s => ⟨hostInit_frame s, rfl⟩, fun c _ =>
    ⟨State.getV_init c, rfl, rfl, List.length_replicate, fun _ => List.eq_of_mem_replicate, rfl, rfl, rfl,
      State.keys_init c, State.pixel_init c, fun k => State.readByte_init_font c k.isLt,
      fun _ => State.readByte_init_outside, rfl, rfl⟩⟩

/-- Settles O58: the table written out in R322 is the model's, which initialization leaves at FONT_BASE. -/
theorem fontGlyphsInMemory : Obligations.FontGlyphsInMemory := State.readBytes_init_font

end Sys2Proof.Machine
end
